-- ==== Sys2Proof/Word.lean ====
section
/-! DEFINITION. The value types of the MT19937 recurrence engine: words, command and response words, the state
buffer and its cursor. Sizes follow spec/00_scope.md rule R4 (W = 32, N = 624). -/

namespace Sys2Proof

/-- A word: an unsigned 32-bit value, bit 0 least significant (spec/00_scope.md R6, spec/43_numeric_semantics.md R58). -/
abbrev Word := BitVec 32

/-- A command word on the command port (spec/30_encoding.md R30, R31). -/
abbrev CmdWord := BitVec 34

/-- A response word on the response port (spec/30_encoding.md R30, R35). -/
abbrev RspWord := BitVec 34

/-- The state buffer `words`: exactly 624 words, never more or fewer (spec/10_state.md R13). -/
abbrev Buffer := Vector Word 624

/-- A word index of the buffer, 0 to 623. There is no `words[624]` (spec/20_memory.md R20). -/
abbrev Index := Fin 624

/-- The cursor, in `[0, 624]`. The 10-bit encodings 625 to 1023 cannot be represented (spec/10_state.md R14). -/
abbrev Cursor := Fin 625

end Sys2Proof
end

