-- ==== Sys2Proof/Syntax.lean ====
section
/-! DEFINITION. The commands of the block: one constructor per row of spec/opcode_table.json
(spec/30_encoding.md rule R33). -/

namespace Sys2Proof

/-- A decoded command. Every constructor keeps the 32 operand bits `cmd[31:0]` of its command word, also where the
block ignores them (spec/30_encoding.md R32, log entry 13), so that a command and its word say the same. -/
inductive Instr
  /-- `CONSTRUCT seed`, `op = 00` (spec/40_construct.md R40). -/
  | construct (seed : Word)
  /-- `NEXT`, `op = 01`; the operand bits are ignored (spec/41_next_tempering.md R45). -/
  | next (arg : Word)
  /-- `DISPOSE`, `op = 10`; the operand bits are ignored (spec/44_dispose.md R65). -/
  | dispose (arg : Word)
  /-- The reserved opcode `op = 11`, which answers ILLEGAL (spec/30_encoding.md R34). -/
  | reservedOp3 (arg : Word)
  deriving DecidableEq, Repr

end Sys2Proof
end

