-- ==== Sys2Proof/Machine/State.lean ====
section
/-! DEFINITION. The state of the block as plain data, the reasons a step stops, and the state after reset
(spec/10_state.md rules R10 to R18). -/

namespace Sys2Proof.Machine

/-- The instance slot: `live`, `words` and `cursor` in one value, in the shape spec/10_state.md R10 gives a model.
`words` and `cursor` hold a value only while `live = 1`, so they stand under `live` and nowhere else (log entry 4). -/
inductive Slot
  /-- `live = 0`: no Generator is constructed; `words` and `cursor` hold no value (R10, R18). -/
  | notLive
  /-- `live = 1`: the 624 raw recurrence words and the cursor (R12, R13, R14). -/
  | live (words : Buffer) (cursor : Cursor)
  deriving DecidableEq, Repr

/-- The status of a response (spec/30_encoding.md R36). Code `11` is never produced, so it has no constructor
(spec/93_implementation_defined.md U10). -/
inductive Status
  /-- `00`: the command was performed. -/
  | ok
  /-- `01`: a CONSTRUCT found the slot occupied (spec/60_exceptions.md R71). -/
  | allocFail
  /-- `10`: reserved opcode (spec/30_encoding.md R34). -/
  | illegal
  deriving DecidableEq, Repr

/-- A response: its status and its data field (spec/30_encoding.md R35). Its 34-bit word is `Response.word`. -/
structure Response where
  status : Status
  data   : Word
  deriving DecidableEq, Repr

/-- What the host does next to the ports (spec/60_exceptions.md R81, spec/70_reset_and_hazards.md R85, R87;
log entries 1, 7 and 8). -/
inductive HostInput
  /-- The host presents a command word while no command is in flight (R30, R81). -/
  | command (w : CmdWord)
  /-- The host asserts reset; `inFlight` is the command word that was in flight and is abandoned, if any (R85). Such a
  command never faults, also a NEXT or DISPOSE sent while nothing is live (DESIGN CHOICE, log entry 18). -/
  | reset (inFlight : Option CmdWord)
  /-- The host presents `second` before the response to `first`, which no rule gives a meaning (R87). -/
  | overlap (first second : CmdWord)
  deriving DecidableEq, Repr

/-- The faults of the block: there is one (spec/60_exceptions.md R70, R73). -/
inductive Fault
  /-- `UseWhileNotLive(cmd)`: raised by NEXT and by DISPOSE presented while `live = 0`, with the command word that
  faulted, for diagnostics only (R70, R73, R75). Safe: the block's behaviour is unspecified there and the model has no
  successor state. -/
  | useWhileNotLive (cmd : CmdWord)
  deriving DecidableEq, Repr

/-- The reasons a step has no meaning. -/
inductive Refusal
  /-- The command has no meaning in this model yet. Raised by an arm of `exec` only; no arm raises it in this model. Safe. -/
  | notModelled (mnemonic : String)
  /-- Two commands overlap: raised by the step when the host presents a command before the previous response
  (spec/70_reset_and_hazards.md R87: no rule applies and a model gives such a run no meaning; U12). Safe. -/
  | overlappingCommands (first second : CmdWord)
  deriving DecidableEq, Repr

/-- The state: the block's own state, and the two ports' sides that a run is made of. -/
structure State where
  /-- The block's architectural state `live`, `words`, `cursor` (spec/10_state.md R10). -/
  slot : Slot
  /-- MODEL'S OWN: what the host does next, earliest first. The block does not hold it (R11, R17; log entry 1). -/
  pending : List HostInput
  /-- MODEL'S OWN: the responses delivered since reset, earliest first, the observation of a run
  (spec/60_exceptions.md R82; log entry 2). -/
  responses : List Response
  deriving DecidableEq, Repr

/-- The state after reset: `live = 0`, `words` and `cursor` without a value (spec/10_state.md R18,
spec/70_reset_and_hazards.md R85). Nothing is pending and nothing has been answered (log entries 1 and 2). -/
def State.reset : State := { slot := .notLive, pending := [], responses := [] }

end Sys2Proof.Machine
end

