-- ==== Sys2Proof/Machine/Flags.lean ====
section
/-! DEFINITION. The block's only flag, `live` (spec/10_state.md rule R12), and the status codes of a response
(spec/30_encoding.md rule R36). No arithmetic sets a flag (R12, spec/43_numeric_semantics.md R58). -/

namespace Sys2Proof.Machine

/-- `live` of a slot (R12). -/
def Slot.isLive : Slot → Bool
  | .notLive => false
  | .live _ _ => true

/-- The lifecycle flag `live` (R12). -/
def State.live (s : State) : Bool := s.slot.isLive

/-- The state buffer, which holds a value only while `live = 1` (R10). -/
def Slot.words? : Slot → Option Buffer
  | .notLive => none
  | .live words _ => some words

/-- The cursor, which holds a value only while `live = 1` (R10). -/
def Slot.cursor? : Slot → Option Cursor
  | .notLive => none
  | .live _ cursor => some cursor

/-- The status code of R36. -/
def Status.bits : Status → BitVec 2
  | .ok => 0b00#2
  | .allocFail => 0b01#2
  | .illegal => 0b10#2

/-- The status of a code, `none` for `11`, which is never produced (R36). -/
def Status.ofBits? (b : BitVec 2) : Option Status :=
  match b.getLsbD 1, b.getLsbD 0 with
  | false, false => some .ok
  | false, true => some .allocFail
  | true, false => some .illegal
  | true, true => none

/-- The 34-bit response word: status in bits 33:32, data in bits 31:0 (spec/30_encoding.md R35). -/
def Response.word (r : Response) : RspWord := r.status.bits ++ r.data

/-- What a host reads from a response word; `none` is a block outside the spec (R36). -/
def Response.ofWord? (w : RspWord) : Option Response :=
  (Status.ofBits? (w.extractLsb' 32 2)).map fun st => { status := st, data := w.extractLsb' 0 32 }

end Sys2Proof.Machine
end

