-- ==== Sys2Proof/Config.lean ====
section
/-! DEFINITION. The constants of the block, all fixed by spec/00_scope.md rule R4 (nothing is left to the
implementation), and the open latency parameters of spec/70_reset_and_hazards.md rule R96, which no rule of the
behaviour depends on. -/

namespace Sys2Proof.Config

/-- `N`: the number of words of the buffer (R4). -/
def N : Nat := 624

/-- The cursor value that says the buffer is exhausted (R4, spec/10_state.md R14). -/
def sentinel : Cursor := 624

/-- `M`: the ring offset of the third operand of the twist (R4). -/
def M : Nat := 397

/-- `F`: the multiplier of the seeding recurrence (R4). -/
def F : Word := 1812433253#32

/-- `MAGIC[0]` (R4). -/
def magic0 : Word := 0x00000000#32

/-- `MAGIC[1]` (R4). -/
def magic1 : Word := 0x9908B0DF#32

/-- `UPPER_MASK` (R4). -/
def upperMask : Word := 0x80000000#32

/-- `LOWER_MASK` (R4). -/
def lowerMask : Word := 0x7FFFFFFF#32

/-- `SEED_SHIFT` (R4). -/
def seedShift : Nat := 30

/-- `TEMPER_U` (R4). -/
def temperU : Nat := 11

/-- `TEMPER_S` (R4). -/
def temperS : Nat := 7

/-- `TEMPER_B` (R4). -/
def temperB : Word := 0x9D2C5680#32

/-- `TEMPER_T` (R4). -/
def temperT : Nat := 15

/-- `TEMPER_C` (R4). -/
def temperC : Word := 0xEFC60000#32

/-- `TEMPER_L` (R4). -/
def temperL : Nat := 18

/-- `T_CONSTRUCT`: an open parameter, positive and finite (spec/92_eei_decisions.md D18, log entry 10). It has no
body, so nothing can be proved of its value. -/
opaque tConstruct : ℕ+

/-- `T_NEXT`: the open latency of a NEXT that does not regenerate (D18, log entry 10). -/
opaque tNext : ℕ+

/-- `T_NEXT_REGEN`: the open latency of a NEXT that regenerates (D18, log entry 10). -/
opaque tNextRegen : ℕ+

/-- `T_DISPOSE`: the open latency of a DISPOSE (D18, log entry 10). -/
opaque tDispose : ℕ+

end Sys2Proof.Config
end

