-- ==== Sys2Proof/WellFormed.lean ====
section
/-! DEFINITION. Well-formedness of commands. The block accepts every 34-bit word and every operand
(spec/30_encoding.md rules R32 and R33), so as commands all are well-formed. What an assembler writes for a mnemonic is
narrower (R32, R38), and that is the check with content. -/

namespace Sys2Proof

/-- Well-formed for the block: all 2^32 seeds are legal, and any operand bits are accepted by NEXT, DISPOSE and the
reserved opcode (spec/30_encoding.md R32, R34). One row per constructor, so that a new command cannot slip past. -/
def Instr.wellFormed : Instr → Bool
  | .construct _ => true
  | .next _ => true
  | .dispose _ => true
  | .reservedOp3 _ => true

/-- What the mnemonics of spec/30_encoding.md R38 can write: operand bits zero for NEXT and DISPOSE (R32), and no
reserved command, which only `.word` can write. -/
def Instr.assemblerForm : Instr → Bool
  | .construct _ => true
  | .next arg => arg == 0#32
  | .dispose arg => arg == 0#32
  | .reservedOp3 _ => false

end Sys2Proof
end

