-- ==== Sys2Proof/Decode.lean ====
section
/-! DEFINITION. The decoder of spec/30_encoding.md rules R31 to R34, total on every 34-bit command word, the rejection
by name of a number that is no command word, the encoder written from the same table, and the opcode table itself. -/

namespace Sys2Proof

/-- `cmd[33:32]`, the opcode field (R31). -/
def opField (w : CmdWord) : BitVec 2 := w.extractLsb' 32 2

/-- `cmd[31:0]`, the operand field, taken as it stands (R31, R32). -/
def argField (w : CmdWord) : Word := w.extractLsb' 0 32

/-- The decoder: bits 33 and 32 choose one of four rows, so every word decodes and none falls through to a
neighbour (R33, R37). -/
def decode (w : CmdWord) : Instr :=
  match w.getLsbD 33, w.getLsbD 32 with
  | false, false => .construct (argField w)
  | false, true => .next (argField w)
  | true, false => .dispose (argField w)
  | true, true => .reservedOp3 (argField w)

/-- Why a number is not decoded. -/
inductive DecodeError
  /-- The number needs more bits than the 34 of the command port (R30). Safe: nothing is decoded from it. -/
  | widerThanCommandPort
  deriving DecidableEq, Repr

/-- Decoding of any number: a value of 34 bits decodes, a wider one is rejected by name (R31, R37: every command is
exactly one 34-bit word). -/
def decodeNumber (n : Nat) : Except DecodeError Instr :=
  if n < 2 ^ 34 then .ok (decode (BitVec.ofNat 34 n)) else .error .widerThanCommandPort

/-- The host's view of the decoder: the command of a table word of `nbits` bits, `none` where the word does not fit
the command port (log entry 16). -/
def decodeTableWord (nbits w : Nat) : Option Instr :=
  match decodeNumber (w % 2 ^ nbits) with
  | .ok i => some i
  | .error .widerThanCommandPort => none

/-! ### The encoder -/

/-- The opcode of a command (R33). -/
def opcodeBits : Instr → BitVec 2
  | .construct _ => 0b00#2
  | .next _ => 0b01#2
  | .dispose _ => 0b10#2
  | .reservedOp3 _ => 0b11#2

/-- The operand bits of a command (R31, R32). -/
def operandBits : Instr → Word
  | .construct seed => seed
  | .next arg => arg
  | .dispose arg => arg
  | .reservedOp3 arg => arg

/-- The command word of a command, op and arg joined with op in the high bits (R31). -/
def encode (i : Instr) : CmdWord := opcodeBits i ++ operandBits i

/-! ### The opcode table of R33 -/

/-- The mnemonic of a command as spec/opcode_table.json spells it. -/
def Instr.mnemonic : Instr → String
  | .construct _ => "CONSTRUCT"
  | .next _ => "NEXT"
  | .dispose _ => "DISPOSE"
  | .reservedOp3 _ => "RESERVED_OP3"

/-- A row of the opcode map: mnemonic, match and mask (R33). -/
structure OpcodeRow where
  mnemonic : String
  pattern  : CmdWord
  mask     : CmdWord
  deriving DecidableEq, Repr

/-- The opcode map, complete in four rows (R33, spec/opcode_table.json). -/
def opcodeTable : List OpcodeRow :=
  [ ⟨"CONSTRUCT",    0x000000000#34, 0x300000000#34⟩,
    ⟨"NEXT",         0x100000000#34, 0x300000000#34⟩,
    ⟨"DISPOSE",      0x200000000#34, 0x300000000#34⟩,
    ⟨"RESERVED_OP3", 0x300000000#34, 0x300000000#34⟩ ]

/-- A command word selects the row for which `(c & mask) = match` (R33). -/
def OpcodeRow.selectedBy (r : OpcodeRow) (c : CmdWord) : Bool := c &&& r.mask == r.pattern

end Sys2Proof
end

