-- ==== Sys2Proof/Machine/Operands.lean ====
section
/-! DEFINITION. The operands of the block. A command has one operand form, the seed `cmd[31:0]`, assembled in
Sys2Proof/Decode.lean (spec/30_encoding.md rule R32). Inside a command the words are reached by the index forms of
spec/20_memory.md rule R24, which stand here. -/

namespace Sys2Proof.Machine

/-- An index of the ring: a number taken modulo 624 (R24, spec/43_numeric_semantics.md R63). -/
def ring (n : Nat) : Index := ⟨n % 624, Nat.mod_lt n (by decide)⟩

/-- Form (a): the loop index `i` itself. -/
def loopIndex (i : Nat) : Index := ring i

/-- Form (c): `(i + 1) mod 624`. -/
def nextIndex (i : Nat) : Index := ring (i + 1)

/-- Form (d): `(i + 397) mod 624`. -/
def farIndex (i : Nat) : Index := ring (i + Config.M)

/-- Form (e): the cursor as an index, which it is unless it is the sentinel (spec/10_state.md R14). -/
def cursorIndex (c : Cursor) (h : c ≠ Config.sentinel) : Index :=
  ⟨c.val, by
    have hc : c.val ≠ 624 := fun e => h (Fin.ext e)
    omega⟩

/-- `zext_32(i)`: an index as a word, the one place an index enters word arithmetic (spec/00_scope.md R9, R63). -/
def zext32 (i : Nat) : Word := BitVec.ofNat 32 i

end Sys2Proof.Machine
end

