-- ==== Sys2Proof/Machine/Ops.lean ====
section
/-! DEFINITION. The named operations every command is written over: the buffer's read and write, the writes of the
slot, the response, the fault, and what the host's inputs other than commands do. -/

namespace Sys2Proof.Machine

/-- What a command or a step answers. -/
abbrev Result := Host.Outcome State Fault Refusal

/-! ### The buffer: its only two accesses (spec/20_memory.md R22, R23, R25) -/

/-- `words[i]`: a whole word, without side effect (R22). -/
def readWord (b : Buffer) (i : Index) : Word := b[i.val]

/-- `words[i] <- v`: replaces the whole word at `i` and no other (R23). -/
def writeWord (b : Buffer) (i : Index) (v : Word) : Buffer := b.set i.val v

/-! ### The block's state -/

/-- `live`, `words` and `cursor` written together; a command is atomic (spec/20_memory.md R26). -/
def State.setSlot (s : State) (slot : Slot) : State := { s with slot := slot }

/-- `respond(status, data)`: the command's one response, delivered after all of its writes
(spec/00_scope.md R9, spec/20_memory.md R26, spec/30_encoding.md R30). -/
def State.respond (s : State) (status : Status) (data : Word) : State :=
  { s with responses := s.responses ++ [{ status := status, data := data }] }

/-! ### Errors (spec/60_exceptions.md) -/

/-- An error response: the response word is the whole report; nothing is saved, no mode changes and the block is at
once ready for the next command (R72). Data is 0 (spec/30_encoding.md R35). -/
def respondError (status : Status) (s : State) : Result := .next (s.respond status 0#32)

/-- `raise UseWhileNotLive(cmd)`: the outcome is the fault, with no response and no successor state (R73, R75). -/
def raiseUseWhileNotLive (i : Instr) : Result := .fault (.useWhileNotLive (encode i))

/-! ### The host's side of the ports -/

/-- The next input of the host, and the state without it. -/
def State.takeInput (s : State) : Option HostInput × State :=
  match s.pending with
  | [] => (none, s)
  | input :: rest => (some input, { s with pending := rest })

/-- Nothing is presented: the block is idle and holds its state (R77, R80; log entry 3). -/
def idle (s : State) : Result := .next s

/-- The state reset leaves, from any state whatever; what the host does afterwards is still to come
(spec/70_reset_and_hazards.md R85). -/
def resetTo (rest : List HostInput) : State := { State.reset with pending := rest }

/-- Reset is asserted: it overrides everything, and a command in flight is abandoned without a response (R76, R85), and
without a fault whichever command it is (DESIGN CHOICE, log entry 18). -/
def takeReset (_inFlight : Option CmdWord) (s : State) : Result := .next (resetTo s.pending)

/-- A command presented before the previous response: no rule applies (spec/70_reset_and_hazards.md R87). -/
def refuseOverlap (first second : CmdWord) : Result := .refused (.overlappingCommands first second)

/-- The host presents these command words, in this order, after what it already does. -/
def State.present (s : State) (ws : List CmdWord) : State :=
  { s with pending := s.pending ++ ws.map .command }

/-- The host presents the word of `nbits` bits `w` at once: the port carries 34 bits (log entries 1 and 16). -/
def State.presentNow (s : State) (nbits w : Nat) : State :=
  { s with pending := .command (BitVec.ofNat 34 (w % 2 ^ nbits)) :: s.pending }

end Sys2Proof.Machine
end

