-- ==== Sys2Proof/Machine/Construct.lean ====
section
/-! DEFINITION. CONSTRUCT and the seeding recurrence (spec/40_construct.md rules R40 to R44). -/

namespace Sys2Proof.Machine

/-- One step of the seeding recurrence, from `words[i-1]` to `words[i]`:
`(F * (words[i-1] XOR (words[i-1] >> 30)) + i) mod 2^32` (R41). -/
def seedNext (i : Nat) (prev : Word) : Word :=
  Config.F * (prev ^^^ (prev >>> Config.seedShift)) + zext32 i

/-- `n` words of the seeding recurrence in ascending order, the first of them `w` at index `i` (R40, R41). -/
def seedWords : (n i : Nat) → (w : Word) → List Word
  | 0, _, _ => []
  | n + 1, i, w => w :: seedWords n (i + 1) (seedNext (i + 1) w)

theorem seedWords_length (n i : Nat) (w : Word) : (seedWords n i w).length = n := by
  induction n generalizing i w with
  | zero => rfl
  | succ n ih => simp [seedWords, ih]

/-- The buffer CONSTRUCT writes: `words[0] = seed`, then indices 1 to 623. It reads no old word (R40, R42(d)). -/
def seedBuffer (seed : Word) : Buffer :=
  ⟨(seedWords 624 0 seed).toArray, by simp [seedWords_length]⟩

/-- CONSTRUCT (R40): on an occupied slot ALLOC_FAIL and no change (R44, spec/60_exceptions.md R71), otherwise all 624
words are written, the cursor is set to the sentinel and the slot is live. -/
def execConstruct (seed : Word) (s : State) : Result :=
  match s.slot with
  | .live _ _ => respondError .allocFail s
  | .notLive => .next ((s.setSlot (.live (seedBuffer seed) Config.sentinel)).respond .ok 0#32)

end Sys2Proof.Machine
end

