-- ==== Sys2Proof/Machine/Dispose.lean ====
section
/-! DEFINITION. DISPOSE (spec/44_dispose.md rules R65 to R67). -/

namespace Sys2Proof.Machine

/-- DISPOSE (R65): fault while not live; otherwise `live <- 0`, after which `words` and `cursor` hold no value. -/
def execDispose (arg : Word) (s : State) : Result :=
  match s.slot with
  | .notLive => raiseUseWhileNotLive (.dispose arg)
  | .live _ _ => .next ((s.setSlot .notLive).respond .ok 0#32)

end Sys2Proof.Machine
end

