-- ==== Sys2Proof/Machine/Regenerate.lean ====
section
/-! DEFINITION. REGENERATE, the twist recurrence, as a function of the buffer alone (spec/42_regenerate.md rules R50 to
R56). It is no command: NEXT runs it, and it touches neither the cursor nor `live` (R54). -/

namespace Sys2Proof.Machine

/-- The combined value `y`: bit 31 of the current word, bits 30:0 of the next (R50, R53). -/
def combine (cur next : Word) : Word := (cur &&& Config.upperMask) ||| (next &&& Config.lowerMask)

/-- `MAGIC[y & 1]` (R50, R53). -/
def magicOf (y : Word) : Word := if y &&& 1#32 = 0#32 then Config.magic0 else Config.magic1

/-- `T(a, b) = (y >> 1) XOR MAGIC[y & 1]` of the combined value of `a` and `b` (R52). -/
def twistTerm (cur next : Word) : Word :=
  let y := combine cur next
  (y >>> 1) ^^^ magicOf y

/-- One iteration: three reads of the buffer as the earlier iterations left it, then one write (R50, R51). -/
def twistIteration (i : Nat) (b : Buffer) : Buffer :=
  let cur := readWord b (loopIndex i)
  let next := readWord b (nextIndex i)
  let src := readWord b (farIndex i)
  writeWord b (loopIndex i) (src ^^^ twistTerm cur next)

/-- The buffer after the first `n` iterations, indices 0 to `n - 1` in ascending order (R50, log entry 12). -/
def twistUpTo : (n : Nat) → Buffer → Buffer
  | 0, b => b
  | n + 1, b => twistIteration n (twistUpTo n b)

/-- REGENERATE: 624 iterations in place (R50, R54). -/
def regenerate (b : Buffer) : Buffer := twistUpTo 624 b

end Sys2Proof.Machine
end

