-- ==== Sys2Proof/Machine/Next.lean ====
section
/-! DEFINITION. NEXT and the tempering output stage (spec/41_next_tempering.md rules R45 to R49). -/

namespace Sys2Proof.Machine

/-- Tempering step 1: `y ^= y >> 11` (R46). -/
def temper1 (y : Word) : Word := y ^^^ (y >>> Config.temperU)

/-- Tempering step 2: `y ^= (y << 7) & 0x9D2C5680` (R46). -/
def temper2 (y : Word) : Word := y ^^^ ((y <<< Config.temperS) &&& Config.temperB)

/-- Tempering step 3: `y ^= (y << 15) & 0xEFC60000` (R46). -/
def temper3 (y : Word) : Word := y ^^^ ((y <<< Config.temperT) &&& Config.temperC)

/-- Tempering step 4: `y ^= y >> 18` (R46). -/
def temper4 (y : Word) : Word := y ^^^ (y >>> Config.temperL)

/-- `TEMPER(y)`: the four steps in order, on a copy; it reads and writes no state (R46, R47). -/
def temper (y : Word) : Word := temper4 (temper3 (temper2 (temper1 y)))

/-- The buffer NEXT reads and the index it reads at: on `cursor = 624` the whole buffer is regenerated and the cursor
becomes 0, otherwise both are as they stand (R45, R48). -/
def refill (words : Buffer) (cursor : Cursor) : Buffer × Index :=
  if h : cursor = Config.sentinel then (regenerate words, 0) else (words, cursorIndex cursor h)

/-- NEXT (R45): fault while not live; otherwise refill, read, advance the cursor past the word read, and respond with
the tempered word, all 32 bits (R49). The word in the buffer stays raw (R47). -/
def execNext (arg : Word) (s : State) : Result :=
  match s.slot with
  | .notLive => raiseUseWhileNotLive (.next arg)
  | .live words cursor =>
    let r := refill words cursor
    .next ((s.setSlot (.live r.1 r.2.succ)).respond .ok (temper (readWord r.1 r.2)))

end Sys2Proof.Machine
end

