-- ==== Sys2Proof/Machine/Reserved.lean ====
section
/-! DEFINITION. The reserved opcode `11` (spec/30_encoding.md rule R34). -/

namespace Sys2Proof.Machine

/-- The reserved opcode answers ILLEGAL with data 0 and changes nothing, whatever `live` is; the decode check comes
before any lifecycle check (R34, spec/60_exceptions.md R76). -/
def execReservedOp3 (_arg : Word) (s : State) : Result := respondError .illegal s

end Sys2Proof.Machine
end

