-- ==== Sys2Proof/Machine/Dispatch.lean ====
section
/-! DEFINITION. One arm per command (spec/30_encoding.md rule R33). -/

namespace Sys2Proof.Machine

def exec (i : Instr) (s : State) : Host.Outcome State Fault Refusal :=
  match i with
  | .construct seed => Sys2Proof.Machine.execConstruct seed s
  | .next arg => Sys2Proof.Machine.execNext arg s
  | .dispose arg => Sys2Proof.Machine.execDispose arg s
  | .reservedOp3 arg => Sys2Proof.Machine.execReservedOp3 arg s

end Sys2Proof.Machine
end

