-- ==== Sys2Proof/Machine/Step.lean ====
section
/-! DEFINITION. One step: the block takes the host's next input. A command is decoded and performed whole
(spec/20_memory.md rule R26, spec/30_encoding.md rule R30); reset and overlap follow spec/70_reset_and_hazards.md. -/

namespace Sys2Proof.Machine

/-- One step of the block under its host. The decode comes before anything the command checks (spec/60_exceptions.md R76). -/
def step (s : State) : Host.Outcome State Fault Refusal :=
  match s.takeInput with
  | (none, t) => idle t
  | (some (.command w), t) => exec (decode w) t
  | (some (.reset inFlight), t) => takeReset inFlight t
  | (some (.overlap first second), _) => refuseOverlap first second

/-- The command word is what the host presents next (log entry 1). -/
def State.withFetchWord (s : State) (nbits w : Nat) : State := s.presentNow nbits w

end Sys2Proof.Machine
end

