-- ==== Sys2Proof/Machine/Assembler.lean ====
section
/-! DEFINITION. The assembler syntax of spec/30_encoding.md rules R38 and R39: lines, pseudo-instructions, the words
they assemble to, and the text they are written in (log entry 15). -/

namespace Sys2Proof.Machine

/-- One line of a program. -/
inductive AsmLine
  /-- `CONSTRUCT <seed>` (R38). -/
  | construct (seed : Nat)
  /-- `NEXT` (R38). -/
  | next
  /-- `DISPOSE` (R38). -/
  | dispose
  /-- `.word <34-bit numeral>` (R38). -/
  | word (n : Nat)
  /-- Pseudo-instruction `NEXT xK` (R39). -/
  | nextTimes (k : Nat)
  /-- Pseudo-instruction `RESEED <seed>` (R39). -/
  | reseed (seed : Nat)
  deriving DecidableEq, Repr

/-- The numerals are in range: a seed in `[0, 2^32 - 1]`, a word of 34 bits, a count of at least 1 (R38, R39). -/
def AsmLine.wellFormed : AsmLine → Bool
  | .construct seed => decide (seed < 2 ^ 32)
  | .next => true
  | .dispose => true
  | .word n => decide (n < 2 ^ 34)
  | .nextTimes k => decide (1 ≤ k)
  | .reseed seed => decide (seed < 2 ^ 32)

/-- The pseudo-instructions replaced by their expansions (R39). -/
def AsmLine.expand : AsmLine → List AsmLine
  | .nextTimes k => List.replicate k .next
  | .reseed seed => [.dispose, .construct seed]
  | .construct seed => [.construct seed]
  | .next => [.next]
  | .dispose => [.dispose]
  | .word n => [.word n]

/-- The command words of a line (R38): CONSTRUCT carries its seed, NEXT and DISPOSE carry zeros, `.word` stands as it is. -/
def AsmLine.words : AsmLine → List CmdWord
  | .construct seed => [encode (.construct (BitVec.ofNat 32 seed))]
  | .next => [encode (.next 0#32)]
  | .dispose => [encode (.dispose 0#32)]
  | .word n => [BitVec.ofNat 34 n]
  | .nextTimes k => List.replicate k (encode (.next 0#32))
  | .reseed seed => [encode (.dispose 0#32), encode (.construct (BitVec.ofNat 32 seed))]

/-- A program assembled line by line, top to bottom; `none` where a numeral is out of
range (DESIGN CHOICE, log entry 15). -/
def assemble : List AsmLine → Option (List CmdWord)
  | [] => some []
  | l :: ls => if l.wellFormed then (assemble ls).map (l.words ++ ·) else none

/-! ### The text of a line, as a list of characters -/

/-- A blank between the parts of a line. -/
def isBlank (c : Char) : Bool := c == ' ' || c == '\t'

/-- The parts of a line, `acc` being the reversed beginning of the current one. -/
def partsFrom (acc : List Char) : List Char → List (List Char)
  | [] => if acc.isEmpty then [] else [acc.reverse]
  | c :: cs =>
    if isBlank c then (if acc.isEmpty then partsFrom [] cs else acc.reverse :: partsFrom [] cs)
    else partsFrom (c :: acc) cs

/-- The value of a decimal digit. -/
def decimalDigit? (c : Char) : Option Nat :=
  if 48 ≤ c.toNat ∧ c.toNat ≤ 57 then some (c.toNat - 48) else none

/-- The value of a hexadecimal digit of either case. -/
def hexDigit? (c : Char) : Option Nat :=
  if 65 ≤ c.toNat ∧ c.toNat ≤ 70 then some (c.toNat - 55)
  else if 97 ≤ c.toNat ∧ c.toNat ≤ 102 then some (c.toNat - 87)
  else decimalDigit? c

/-- The value of a run of digits read after the value `n`; `none` at a character that is no digit. -/
def digitsFrom (base : Nat) (digit? : Char → Option Nat) (n : Nat) : List Char → Option Nat
  | [] => some n
  | c :: cs =>
    match digit? c with
    | some d => digitsFrom base digit? (n * base + d) cs
    | none => none

/-- A decimal numeral of at least one digit. -/
def decimal? : List Char → Option Nat
  | [] => none
  | c :: cs => digitsFrom 10 decimalDigit? 0 (c :: cs)

/-- A numeral: `0x` and hexadecimal digits, or decimal digits (R38). -/
def numeral? : List Char → Option Nat
  | '0' :: 'x' :: c :: cs => digitsFrom 16 hexDigit? 0 (c :: cs)
  | cs => decimal? cs

/-- A line of two parts. -/
def parseTwo (m a : List Char) : Option AsmLine :=
  if m = ['C', 'O', 'N', 'S', 'T', 'R', 'U', 'C', 'T'] then (numeral? a).map .construct
  else if m = ['R', 'E', 'S', 'E', 'E', 'D'] then (numeral? a).map .reseed
  else if m = ['.', 'w', 'o', 'r', 'd'] then (numeral? a).map .word
  else if m = ['N', 'E', 'X', 'T'] then
    match a with
    | 'x' :: k => (decimal? k).map .nextTimes
    | _ => none
  else none

/-- A line of one part. -/
def parseOne (m : List Char) : Option AsmLine :=
  if m = ['N', 'E', 'X', 'T'] then some .next
  else if m = ['D', 'I', 'S', 'P', 'O', 'S', 'E'] then some .dispose
  else none

/-- A line of text: at most one command, a `;` starting a comment (R38). `none` is a line that is none of R38 and R39. -/
def parseLine (cs : List Char) : Option (List AsmLine) :=
  match partsFrom [] (cs.takeWhile (· != ';')) with
  | [] => some []
  | [m] => (parseOne m).map ([·])
  | [m, a] => (parseTwo m a).map ([·])
  | _ => none

/-- A program in text, line by line, as command words. -/
def assembleText (lines : List (List Char)) : Option (List CmdWord) :=
  match lines.mapM parseLine with
  | some ls => assemble ls.flatten
  | none => none

end Sys2Proof.Machine
end

