-- ==== Sys2Proof/Machine/Timing.lean ====
section
/-! DEFINITION. Which open latency parameter a command costs (spec/70_reset_and_hazards.md rule R96). No rule of the
behaviour reads it: the step holds no time (log entry 10). -/

namespace Sys2Proof.Machine

/-- The latency of a command, where the spec names a parameter for it. It names none for the reserved opcode, and a
faulting command has no response to wait for. A CONSTRUCT answered ALLOC_FAIL is given T_CONSTRUCT (log entry 10). -/
def latency (i : Instr) (s : State) : Option ℕ+ :=
  match i, s.slot with
  | .construct _, _ => some Config.tConstruct
  | .next _, .live _ cursor => some (if cursor = Config.sentinel then Config.tNextRegen else Config.tNext)
  | .dispose _, .live _ _ => some Config.tDispose
  | .next _, .notLive => none
  | .dispose _, .notLive => none
  | .reservedOp3 _, _ => none

end Sys2Proof.Machine
end

