-- ==== Sys2Proof/Machine/Condition.lean ====
section
/-! DEFINITION. The block beyond one run: the faulted condition, which only reset leaves (spec/60_exceptions.md rule
R74, spec/70_reset_and_hazards.md rule R85), and the same for a run no rule gives a meaning (R87). -/

namespace Sys2Proof.Machine

/-- What the block is in, with what its host does next. -/
inductive Condition
  /-- A specified state. -/
  | running (s : State)
  /-- After a fault: the state is unspecified, so none is held (R73, R74). -/
  | faulted (why : Fault) (pending : List HostInput)
  /-- After overlapping commands: no rule applies (R87). -/
  | meaningless (why : Refusal) (pending : List HostInput)
  deriving DecidableEq, Repr

/-- What reset makes of what the host does next while the block is in no specified state: it is passed over until a
reset, which leaves the reset state (R74, R85; log entry 9). -/
def awaitReset (stay : List HostInput → Condition) : List HostInput → Condition
  | [] => stay []
  | .reset _ :: rest => .running (resetTo rest)
  | .command _ :: rest => stay rest
  | .overlap _ _ :: rest => stay rest

/-- One input taken, in any condition. In a running block it is one `step`. -/
def Condition.advance : Condition → Condition
  | .running s =>
    match step s with
    | .next t => .running t
    | .fault r => .faulted r s.pending.tail
    | .refused r => .meaningless r s.pending.tail
  | .faulted why pending => awaitReset (.faulted why) pending
  | .meaningless why pending => awaitReset (.meaningless why) pending

end Sys2Proof.Machine
end

