-- ==== Sys2Proof/Safety.lean ====
section
/-! DEFINITION. What a safe run is, and the words statements use for runs (spec/60_exceptions.md rules R81 and R82,
spec/70_reset_and_hazards.md rule R88). -/

namespace Sys2Proof

open Sys2Proof.Machine

/-- `k` steps of the machine, stopping at the first fault or refusal: `Host.Core.run` of `core`, written over `step`
(Sys2Proof/Laws/Step.lean proves the two equal). -/
def run : (k : Nat) → State → Host.Outcome State Fault Refusal
  | 0, s => .next s
  | k + 1, s =>
    match step s with
    | .next t => run k t
    | .fault r => .fault r
    | .refused r => .refused r

/-- The host keeps its lifecycle duties from a block whose flag is `live`: no NEXT or DISPOSE while nothing is live,
one command at a time (R81(a), (c), R88).
DESIGN CHOICE (log entry 18): a NEXT or DISPOSE sent while nothing is live and abandoned in flight by reset counts as no
breach of R81(c), as it counts as no fault; the spec leaves open whether 'presented' (R73) and 'never send' (R81(c)) or
'abandoned' (R85) decides. -/
def hostLegal : (live : Bool) → List HostInput → Bool
  | _, [] => true
  | _, .reset _ :: rest => hostLegal false rest
  | _, .overlap _ _ :: _ => false
  | live, .command w :: rest =>
    match decode w with
    | .construct _ => hostLegal true rest
    | .next _ => live && hostLegal live rest
    | .dispose _ => live && hostLegal false rest
    | .reservedOp3 _ => hostLegal live rest

/-- A state from which the host keeps its duties. -/
def Safe (s : State) : Prop := hostLegal s.live s.pending = true

/-- The invariant of states between commands: while live, the cursor is in `[1, 624]` (spec/10_state.md R15(b)); every
response that is not OK carries data 0 (spec/30_encoding.md R35). -/
def CursorInvariant (s : State) : Prop :=
  (∀ words cursor, s.slot = .live words cursor → cursor ≠ 0) ∧
  (∀ r ∈ s.responses, r.status ≠ .ok → r.data = 0#32)

/-- The cursor after the `k`-th NEXT since a CONSTRUCT: 624 before the first, then `((k - 1) mod 624) + 1`
(spec/41_next_tempering.md R48). -/
def cursorAfter : (k : Nat) → Cursor
  | 0 => Config.sentinel
  | k + 1 => (ring k).succ

/-- Generation `g` of the buffer: the seeding sequence after `g` regenerate passes (R48). -/
def generation (seed : Word) : (g : Nat) → Buffer
  | 0 => seedBuffer seed
  | g + 1 => regenerate (generation seed g)

/-- The buffer after the `k`-th NEXT: generation `ceil(k / 624)` (R48). -/
def bufferAfter (seed : Word) (k : Nat) : Buffer := generation seed ((k + 623) / 624)

/-- Output #`k + 1`: the tempered word at index `k mod 624` of the generation it is read from (R48). -/
def outputWord (seed : Word) (k : Nat) : Word := temper (readWord (bufferAfter seed (k + 1)) (ring k))

/-- The invariant of R15(e) and spec/42_regenerate.md R56: a live Generator holds exactly what some seed and some number
of NEXTs since its CONSTRUCT make, so its buffer is the seeding sequence or a whole number of passes over it. -/
def GenerationInvariant (s : State) : Prop :=
  s.slot = .notLive ∨ ∃ seed k, s.slot = .live (bufferAfter seed k) (cursorAfter k)

end Sys2Proof
end

