-- ==== Sys2Proof/Certificates/Slice0/Obligations.lean ====
section
/-! DEFINITION. The statements for the provers. Each docstring names the rules of spec/ it formalises. -/

open Sys2Proof Sys2Proof.Machine

/-! ### Encoding -/

/-- Every command comes back from its own word, with every operand at every value (R31, R33). -/
def Obligations.DecodeOfEncodeIsTheCommand : Prop :=
  ∀ i : Instr, decode (encode i) = i

/-- Every command word comes back from the command it decodes to, so no bit of it is dropped, also where the block
ignores the bits (R31, R33; that ignored bits are kept is log entry 13). -/
def Obligations.EncodeOfDecodeIsTheWord : Prop :=
  ∀ w : CmdWord, encode (decode w) = w

/-- R33: the opcode map is complete in these four rows, a word selects the row for which `(c & mask) = match`, exactly
one row is selected, and it is the row of the command the decoder reads. -/
def Obligations.EveryWordSelectsExactlyOneRow : Prop :=
  opcodeTable.map (fun r => (r.mnemonic, r.pattern, r.mask)) =
    [("CONSTRUCT", 0x000000000#34, 0x300000000#34), ("NEXT", 0x100000000#34, 0x300000000#34),
     ("DISPOSE", 0x200000000#34, 0x300000000#34), ("RESERVED_OP3", 0x300000000#34, 0x300000000#34)] ∧
  (∀ r c, OpcodeRow.selectedBy r c = true ↔ c &&& r.mask = r.pattern) ∧
  ∀ c : CmdWord, ∃ r ∈ opcodeTable, r.selectedBy c = true ∧ r.mnemonic = (decode c).mnemonic ∧
    ∀ r' ∈ opcodeTable, r'.selectedBy c = true → r' = r

/-- R31: `cmd[33:32]` is the opcode and `cmd[31:0]` the operand of the command a word decodes to. -/
def Obligations.DecodedCommandHasTheWordsFields : Prop :=
  ∀ w : CmdWord, opcodeBits (decode w) = w.extractLsb 33 32 ∧ operandBits (decode w) = w.extractLsb 31 0

/-- R32: CONSTRUCT's seed is `cmd[31:0]` as it stands, and from a free slot it never fails, whatever the seed: the block
is live afterwards and the answer is OK; a live block does the same for NEXT and DISPOSE whatever the operand bits are,
and a block that is not live faults whatever they are; the assembler writes zeros. -/
def Obligations.SeedTakenAsItStandsAndOtherOperandsIgnored : Prop :=
  (∀ w : CmdWord, w.extractLsb 33 32 = 0b00#2 → decode w = .construct (w.extractLsb 31 0)) ∧
  (∀ (seed : Word) (s : State), s.live = false →
    ∃ t, exec (.construct seed) s = .next t ∧ t.live = true ∧ t.responses = s.responses ++ [Response.mk .ok 0#32]) ∧
  (∀ (a b : Word) (s : State), s.live = true →
    exec (.next a) s = exec (.next b) s ∧ exec (.dispose a) s = exec (.dispose b) s) ∧
  (∀ (a : Word) (s : State), s.live = false →
    (∃ c, exec (.next a) s = .fault (.useWhileNotLive c)) ∧ ∃ c, exec (.dispose a) s = .fault (.useWhileNotLive c)) ∧
  AsmLine.next.words = [0x100000000#34] ∧ AsmLine.dispose.words = [0x200000000#34]

/-- A sanity statement: command words written out from the table of R33 decode to the commands they stand for. -/
def Obligations.SampleWordsDecodeToTheirCommands : Prop :=
  decode 0b0000000000000000000000000000001010#34 = .construct 10#32 ∧
  decode 0b0100000000000000000000000000000000#34 = .next 0#32 ∧
  decode 0x1FFFFFFFF#34 = .next 0xFFFFFFFF#32 ∧
  decode 0b1000000000000000000000000000000000#34 = .dispose 0#32 ∧
  decode 0x3DEADBEEF#34 = .reservedOp3 0xDEADBEEF#32

/-- R35 and R36 as a layout: a response word carries its status code in bits 33:32 and its data in bits 31:0, the host
reads both back, and no response has the status code `11`. -/
def Obligations.ResponseWordCarriesStatusAndData : Prop :=
  (∀ r : Response, r.word.extractLsb 31 0 = r.data ∧ r.word.extractLsb 33 32 ≠ 0b11#2 ∧ Response.ofWord? r.word = some r) ∧
  (∀ d, (Response.mk .ok d).word.extractLsb 33 32 = 0b00#2) ∧
  (∀ d, (Response.mk .allocFail d).word.extractLsb 33 32 = 0b01#2) ∧
  (∀ d, (Response.mk .illegal d).word.extractLsb 33 32 = 0b10#2) ∧
  ∀ w : RspWord, w.extractLsb 33 32 = 0b11#2 → Response.ofWord? w = none

/-! ### The step -/

/-- When the next host input is a command word, the step is the decoded command performed on the state without that
input (R30: commands are performed in the order presented; R26: each whole). Every word decodes, so there is no other
case. That the host's inputs stand in the state as `pending`, and that a step takes the first of them, is the model's
choice (log entry 1). -/
def Obligations.StepPerformsTheDecodedCommand : Prop :=
  ∀ (s : State) (w : CmdWord) (rest : List HostInput), s.pending = .command w :: rest →
    step s = exec (decode w) { s with pending := rest }

/-- The word the host is made to present is what the next step performs, and nothing else of the state changes. -/
def Obligations.FetchedWordIsPerformedNext : Prop :=
  ∀ (s : State) (n w : Nat), w < 2 ^ n → w < 2 ^ 34 →
    step (s.withFetchWord n w) = exec (decode (BitVec.ofNat 34 w)) s ∧
    decodeTableWord n w = some (decode (BitVec.ofNat 34 w))

/-- R36: the response word of every command in every lifecycle state, with what the command leaves in the slot: a
command answered OK was performed, and ALLOC_FAIL and ILLEGAL change nothing. No response comes from a NEXT or DISPOSE
that is not live, and none at all has the status `11`. -/
def Obligations.ResponseWordOfEveryCommand : Prop :=
  (∀ r : Response, r.word.extractLsb 33 32 ≠ 0b11#2) ∧
  ∀ (s : State) (w : CmdWord),
    let answers := fun (rsp : RspWord) (slot : Slot) => ∃ t, exec (decode w) s = .next t ∧
      t.responses.map Response.word = s.responses.map Response.word ++ [rsp] ∧
      t.slot = slot ∧ t.pending = s.pending
    (w.extractLsb 33 32 = 0b00#2 → s.live = false →
      answers 0x000000000#34 (.live (seedBuffer (w.extractLsb 31 0)) 624)) ∧
    (w.extractLsb 33 32 = 0b00#2 → s.live = true → answers 0x100000000#34 s.slot) ∧
    (w.extractLsb 33 32 = 0b01#2 → ∀ words cursor, s.slot = .live words cursor →
      let (words', j) := refill words cursor
      answers (0b00#2 ++ temper (readWord words' j)) (.live words' j.succ)) ∧
    (w.extractLsb 33 32 = 0b01#2 → s.live = false → ∃ r, exec (decode w) s = .fault r) ∧
    (w.extractLsb 33 32 = 0b10#2 → s.live = true → answers 0x000000000#34 .notLive) ∧
    (w.extractLsb 33 32 = 0b10#2 → s.live = false → ∃ r, exec (decode w) s = .fault r) ∧
    (w.extractLsb 33 32 = 0b11#2 → answers 0x200000000#34 s.slot)

/-- R75: a command word is answered by exactly one of a successor state with exactly one more response, or the fault
with that word; the fault comes exactly from NEXT and DISPOSE while not live; there is no refusal. -/
def Obligations.CommandIsAnsweredOnceOrFaults : Prop :=
  ∀ (s : State) (w : CmdWord),
    ((∃ t r, exec (decode w) s = .next t ∧ t.responses = s.responses ++ [r]) ∨
      exec (decode w) s = .fault (.useWhileNotLive w)) ∧
    (exec (decode w) s = .fault (.useWhileNotLive w) ↔
      s.live = false ∧ (w.extractLsb 33 32 = 0b01#2 ∨ w.extractLsb 33 32 = 0b10#2)) ∧
    ∀ r, exec (decode w) s ≠ .refused r

/-- R87, U12: a run is refused exactly when the host presents a command before the previous response. -/
def Obligations.OnlyOverlapIsRefused : Prop :=
  ∀ (s : State) (r : Refusal), step s = .refused r ↔
    ∃ first second rest, s.pending = .overlap first second :: rest ∧ r = .overlappingCommands first second

/-! ### CONSTRUCT -/

/-- R40 and R41: on a free slot CONSTRUCT completes with the cursor at 624, `words[0]` the seed and each later word from
the one before, the arithmetic being that of numbers modulo 2^32; on an occupied slot it answers ALLOC_FAIL and changes
nothing. The successor state's fields are all named, so nothing else changes. -/
def Obligations.ConstructSeedsTheBuffer : Prop :=
  (∀ (seed : Word) (s : State), s.live = false →
    ∃ words : Buffer,
      exec (.construct seed) s = .next { slot := .live words 624, pending := s.pending,
                                         responses := s.responses ++ [Response.mk .ok 0#32] } ∧
      readWord words (ring 0) = seed ∧
      ∀ i : Nat, 1 ≤ i → i ≤ 623 →
        (readWord words (ring i)).toNat =
          (1812433253 * ((readWord words (ring (i - 1))).toNat ^^^ (readWord words (ring (i - 1))).toNat / 2 ^ 30) + i)
            % 2 ^ 32) ∧
  ∀ (seed : Word) (s : State), s.live = true →
    exec (.construct seed) s = .next { s with responses := s.responses ++ [Response.mk .allocFail 0#32] }

/-- R44: CONSTRUCT fails exactly when `live = 1`, for every seed, and then the live Generator is untouched. -/
def Obligations.ConstructFailsExactlyWhenLive : Prop :=
  ∀ (seed : Word) (s : State), ∃ t r, exec (.construct seed) s = .next t ∧ t.responses = s.responses ++ [r] ∧
    (r.status = .allocFail ↔ s.live = true) ∧ (r.status = .ok ↔ s.live = false) ∧
    (s.live = true → t.slot = s.slot)

/-- R43: two blocks that are not live and are given the same seed and equally many NEXTs (with any ignored operand
bits) hold the same words and cursor and have answered the same, whatever else the two states hold. The commands are
presented through `pending` (log entry 1). -/
def Obligations.SameSeedGivesTheSameOutputs : Prop :=
  ∀ (seed : Word) (args₁ args₂ : List Word) (s₁ s₂ : State) (rest₁ rest₂ : List HostInput),
    args₁.length = args₂.length → s₁.live = false → s₂.live = false →
    s₁.pending = .command (encode (.construct seed)) :: args₁.map (fun a => .command (encode (.next a))) ++ rest₁ →
    s₂.pending = .command (encode (.construct seed)) :: args₂.map (fun a => .command (encode (.next a))) ++ rest₂ →
    ∃ t₁ t₂ out, run (args₁.length + 1) s₁ = .next t₁ ∧ run (args₂.length + 1) s₂ = .next t₂ ∧
      t₁.slot = t₂.slot ∧ t₁.live = true ∧ out.length = args₁.length + 1 ∧
      t₁.responses = s₁.responses ++ out ∧ t₂.responses = s₂.responses ++ out

/-! ### NEXT and tempering -/

/-- R45: NEXT faults while not live; otherwise it regenerates and reads index 0 when the cursor was 624, reads at the
cursor when it was not, leaves the cursor one past the index read, and answers OK with the tempered word. All of the
successor state is named, so nothing else changes. -/
def Obligations.NextReadsTempersAndAdvances : Prop :=
  ∀ (arg : Word) (s : State),
    (s.slot = .notLive → exec (.next arg) s = .fault (.useWhileNotLive (encode (.next arg)))) ∧
    ∀ words cursor, s.slot = .live words cursor →
      ∃ (words' : Buffer) (j : Index) (cursor' : Cursor),
        (cursor = 624 → words' = regenerate words ∧ j.val = 0) ∧
        (cursor ≠ 624 → words' = words ∧ j.val = cursor.val) ∧
        cursor'.val = j.val + 1 ∧
        exec (.next arg) s = .next { slot := .live words' cursor', pending := s.pending,
                                     responses := s.responses ++ [Response.mk .ok (temper (readWord words' j))] }

/-- R46: TEMPER is the four steps in order, in the arithmetic of numbers: right shifts are division, left shifts are
multiplication modulo 2^32, and the masks are applied to the shifted values. -/
def Obligations.TemperIsFourStepsInOrder : Prop :=
  ∀ y : Word, ∃ y1 y2 y3 : Nat,
    y1 = y.toNat ^^^ (y.toNat / 2 ^ 11) ∧
    y2 = y1 ^^^ ((y1 * 2 ^ 7 % 2 ^ 32) &&& 0x9D2C5680) ∧
    y3 = y2 ^^^ ((y2 * 2 ^ 15 % 2 ^ 32) &&& 0xEFC60000) ∧
    (temper y).toNat = y3 ^^^ (y3 / 2 ^ 18)

/-- Derived from R46 and R49: every 32-bit value is the output of exactly one raw word, so `data` ranges over
`[0, 2^32 - 1]` and no bit is forced or dropped. -/
def Obligations.TemperIsABijectionOfWords : Prop :=
  ∀ z : Word, ∃ y : Word, temper y = z ∧ ∀ y' : Word, temper y' = z → y' = y

/-- R48: after a CONSTRUCT from a free slot and `k` NEXTs with any ignored operand bits, the cursor is
`((k - 1) mod 624) + 1` (624 when `k = 0`), the buffer is generation `ceil(k / 624)`, and output #`j + 1` was read at
index `j mod 624` of generation `ceil((j + 1) / 624)`. The whole final state is named. The commands are presented
through `pending` (log entry 1). -/
def Obligations.OutputsFollowTheCadence : Prop :=
  ∀ (seed : Word) (args : List Word) (s : State) (rest : List HostInput), s.live = false →
    s.pending = .command (encode (.construct seed)) :: args.map (fun a => .command (encode (.next a))) ++ rest →
    run (args.length + 1) s = .next
      { slot := .live (bufferAfter seed args.length) (cursorAfter args.length),
        pending := rest,
        responses := s.responses ++ Response.mk .ok 0#32 ::
          (List.range args.length).map fun j => Response.mk .ok (outputWord seed j) }

/-! ### REGENERATE -/

/-- R51: at iteration `i` the indices below `i` hold their new words and those from `i` up their old ones, and so the
three reads return old or new words as the rule lists them. -/
def Obligations.RegenerateReadsOldAndNewWords : Prop :=
  ∀ (old : Buffer) (i : Nat), i < 624 →
    let now := twistUpTo i old
    let new := regenerate old
    (∀ j, j < i → readWord now (ring j) = readWord new (ring j)) ∧
    (∀ j, i ≤ j → j < 624 → readWord now (ring j) = readWord old (ring j)) ∧
    readWord now (loopIndex i) = readWord old (ring i) ∧
    (i ≤ 622 → readWord now (nextIndex i) = readWord old (ring (i + 1))) ∧
    (i = 623 → readWord now (nextIndex i) = readWord new (ring 0)) ∧
    (i ≤ 226 → readWord now (farIndex i) = readWord old (ring (i + 397))) ∧
    (227 ≤ i → readWord now (farIndex i) = readWord new (ring (i - 227)))

/-- R52: the in-place pass equals the closed form in three segments. -/
def Obligations.RegenerateEqualsItsClosedForm : Prop :=
  ∀ old : Buffer,
    let T : Word → Word → Word := fun a b =>
      let y := (a &&& 0x80000000#32) ||| (b &&& 0x7FFFFFFF#32)
      (y >>> 1) ^^^ (if y &&& 1#32 = 0#32 then 0x00000000#32 else 0x9908B0DF#32)
    let o := fun i : Nat => readWord old (ring i)
    let n := fun i : Nat => readWord (regenerate old) (ring i)
    (∀ i, i ≤ 226 → n i = o (i + 397) ^^^ T (o i) (o (i + 1))) ∧
    (∀ i, 227 ≤ i → i ≤ 622 → n i = n (i - 227) ^^^ T (o i) (o (i + 1))) ∧
    n 623 = n 396 ^^^ T (o 623) (n 0)

/-- R53: the bits of the combined value, of its right shift, and the magic word its low bit selects. -/
def Obligations.CombinedValueTakesItsBitsFromTwoWords : Prop :=
  ∀ cur next : Word,
    let y := combine cur next
    y.getLsbD 31 = cur.getLsbD 31 ∧ (∀ k, k ≤ 30 → y.getLsbD k = next.getLsbD k) ∧
    (y >>> 1).getLsbD 31 = false ∧ (y >>> 1).getLsbD 30 = cur.getLsbD 31 ∧
    (∀ k, k ≤ 29 → (y >>> 1).getLsbD k = next.getLsbD (k + 1)) ∧
    (y &&& 1#32).toNat = (next.getLsbD 0).toNat ∧
    (next.getLsbD 0 = false → magicOf y = 0x00000000#32 ∧ twistTerm cur next = y >>> 1) ∧
    (next.getLsbD 0 = true → magicOf y = 0x9908B0DF#32 ∧ twistTerm cur next = (y >>> 1) ^^^ 0x9908B0DF#32)

/-- R55(c): two buffers that differ at most in the low 31 bits of `words[0]` regenerate to the same buffer. -/
def Obligations.LowBitsOfTheFirstWordNeverMatter : Prop :=
  ∀ a b : Buffer, (∀ j : Index, j ≠ 0 → readWord a j = readWord b j) →
    (readWord a 0).getLsbD 31 = (readWord b 0).getLsbD 31 → regenerate a = regenerate b

/-- R55(d): a buffer whose only non-zero bits, if any, are the low 31 bits of `words[0]` regenerates to all zero. -/
def Obligations.DegenerateBufferRegeneratesToZero : Prop :=
  ∀ b : Buffer, (∀ j : Index, j ≠ 0 → readWord b j = 0#32) → (readWord b 0).getLsbD 31 = false →
    ∀ j : Index, readWord (regenerate b) j = 0#32

/-- R24: the index forms of the block, each in range, and where the ring wraps. -/
def Obligations.IndexFormsStayInRange : Prop :=
  (∀ i, i ≤ 623 → (loopIndex i).val = i) ∧
  (∀ i, 1 ≤ i → i ≤ 623 → (ring (i - 1)).val = i - 1 ∧ i - 1 ≤ 622) ∧
  (∀ i, i ≤ 622 → (nextIndex i).val = i + 1) ∧ (nextIndex 623).val = 0 ∧
  (∀ i, i ≤ 226 → (farIndex i).val = i + 397) ∧
  (∀ i, 227 ≤ i → i ≤ 623 → (farIndex i).val = i - 227) ∧
  Config.sentinel.val = 624 ∧
  ∀ (c : Cursor) (h : c ≠ Config.sentinel), (cursorIndex c h).val = c.val ∧ c.val ≤ 623

/-! ### DISPOSE -/

/-- R65: DISPOSE faults while not live; otherwise the slot is empty afterwards, `words` and `cursor` hold no value, and
the answer is OK with data 0. All of the successor state is named, so there is no other side effect. -/
def Obligations.DisposeFreesTheSlot : Prop :=
  ∀ (arg : Word) (s : State),
    (s.live = false → exec (.dispose arg) s = .fault (.useWhileNotLive (encode (.dispose arg)))) ∧
    (s.live = true → exec (.dispose arg) s =
      .next { slot := .notLive, pending := s.pending, responses := s.responses ++ [Response.mk .ok 0#32] })

/-- R66(e): nothing of a disposed Generator can be learnt afterwards: two live blocks, whatever words and cursors they
hold, that are disposed, seeded alike and asked for equally many words end in the same slot with the same answers. -/
def Obligations.DisposedGeneratorLeavesNoTrace : Prop :=
  ∀ (seed a : Word) (args : List Word) (s₁ s₂ : State) (rest : List HostInput), s₁.live = true → s₂.live = true →
    s₁.pending = .command (encode (.dispose a)) :: .command (encode (.construct seed)) ::
      args.map (fun x => .command (encode (.next x))) ++ rest →
    s₂.pending = s₁.pending →
    ∃ t₁ t₂ out, run (args.length + 2) s₁ = .next t₁ ∧ run (args.length + 2) s₂ = .next t₂ ∧
      t₁.slot = t₂.slot ∧ t₁.pending = t₂.pending ∧
      t₁.responses = s₁.responses ++ out ∧ t₂.responses = s₂.responses ++ out

/-! ### The reserved opcode, priority, faults, reset -/

/-- R34: a word with `op = 11` answers ILLEGAL with data 0 and changes no state, whatever `live` is and whatever the
other bits are. All of the successor state is named. -/
def Obligations.ReservedOpcodeAnswersIllegal : Prop :=
  ∀ (s : State) (w : CmdWord), w.extractLsb 33 32 = 0b11#2 →
    decode w = .reservedOp3 (w.extractLsb 31 0) ∧
    exec (decode w) s = .next { slot := s.slot, pending := s.pending,
                                responses := s.responses ++ [Response.mk .illegal 0#32] }

/-- R76: the decode comes first, so ILLEGAL does not depend on `live`; then the lifecycle check of the decoded command
gives ALLOC_FAIL or the fault, and otherwise the answer is OK. Reset, asserted in any state, overrides everything. -/
def Obligations.ChecksComeInTheFixedOrder : Prop :=
  (∀ (s : State) (w : CmdWord),
    let answers := fun st : Status => ∃ t d, exec (decode w) s = .next t ∧ t.responses = s.responses ++ [Response.mk st d]
    (answers .illegal ↔ w.extractLsb 33 32 = 0b11#2) ∧
    (answers .allocFail ↔ w.extractLsb 33 32 = 0b00#2 ∧ s.live = true) ∧
    ((∃ r, exec (decode w) s = .fault r) ↔
      (w.extractLsb 33 32 = 0b01#2 ∨ w.extractLsb 33 32 = 0b10#2) ∧ s.live = false) ∧
    (answers .ok ↔ (w.extractLsb 33 32 = 0b00#2 ∧ s.live = false) ∨
      (w.extractLsb 33 32 = 0b01#2 ∧ s.live = true) ∨ (w.extractLsb 33 32 = 0b10#2 ∧ s.live = true))) ∧
  ∀ (s : State) (f : Option CmdWord) (rest : List HostInput), s.pending = .reset f :: rest →
    ∃ t, step s = .next t ∧ t.live = false

/-- R73: a command faults exactly when it is a NEXT or a DISPOSE and nothing is live, and the fault is
`UseWhileNotLive` with the command that faulted. -/
def Obligations.FaultExactlyOnUseWhileNotLive : Prop :=
  ∀ (i : Instr) (s : State) (r : Fault), exec i s = .fault r ↔
    s.live = false ∧ (∃ arg, i = .next arg ∨ i = .dispose arg) ∧ r = .useWhileNotLive (encode i)

/-- R74: the faulted condition stays, with the fault it began with, whatever commands are presented (a CONSTRUCT is no
recovery), until a reset, which leads back to a state with nothing live (R85). The condition beside the state, and that
it passes over the inputs before the reset, is the model's (log entry 9): it claims nothing of what the block does with
a command there, which is unspecified (R73). -/
def Obligations.FaultIsStickyUntilReset : Prop :=
  ∀ (why : Fault) (inputs rest : List HostInput) (f : Option CmdWord), (∀ g, HostInput.reset g ∉ inputs) →
    Condition.advance^[inputs.length] (.faulted why (inputs ++ rest)) = .faulted why rest ∧
    ∃ s : State, Condition.advance^[inputs.length + 1] (.faulted why (inputs ++ .reset f :: rest)) = .running s ∧
      s.live = false ∧ s.pending = rest

/-- R85: reset leads, from any condition whatever and with any command in flight, to one and the same state, in which
nothing is live; it depends on nothing but what the host does afterwards. That this state's responses are empty, so that
the same state is reached whatever was answered before and the command in flight shows no response, is the model's
convention that reset begins a new list of responses (log entry 2); the reset input that names the command in flight and
the conditions beside the state are the model's too (log entries 7 and 9). -/
def Obligations.ResetFromAnyCondition : Prop :=
  ∀ rest : List HostInput, ∃ after : State, after.slot = .notLive ∧ after.pending = rest ∧ after.responses = [] ∧
    ∀ f : Option CmdWord,
      (∀ s : State, s.pending = .reset f :: rest → step s = .next after ∧ Condition.advance (.running s) = .running after) ∧
      (∀ why, Condition.advance (.faulted why (.reset f :: rest)) = .running after) ∧
      (∀ why, Condition.advance (.meaningless why (.reset f :: rest)) = .running after)

/-- R18: after reset nothing is live, and `words` and `cursor` hold no value. -/
def Obligations.ResetStateHoldsNoGenerator : Prop :=
  State.reset.live = false ∧ State.reset.slot.words? = none ∧ State.reset.slot.cursor? = none

/-! ### The whole machine -/

/-- Frames: when a command answers a next state, what the host does next is unchanged, exactly one response is added,
and of `live`, `words` and `cursor` only what the command writes is changed: nothing by a refused CONSTRUCT and by the
reserved opcode; neither `live` nor any word by a NEXT that does not regenerate, its cursor moving on by one; not `live`
by a NEXT that regenerates. -/
def Obligations.CommandsChangeOnlyWhatTheyWrite : Prop :=
  ∀ (i : Instr) (s t : State), exec i s = .next t →
    t.pending = s.pending ∧ (∃ r, t.responses = s.responses ++ [r]) ∧
    (∀ seed, i = .construct seed → s.live = true → t.slot = s.slot) ∧
    (∀ arg, i = .reservedOp3 arg → t.slot = s.slot) ∧
    (∀ arg words cursor, i = .next arg → s.slot = .live words cursor →
      ∃ words' cursor', t.slot = .live words' cursor' ∧
        (cursor ≠ 624 → (∀ j : Index, readWord words' j = readWord words j) ∧ cursor'.val = cursor.val + 1)) ∧
    (∀ arg, i = .dispose arg → t.slot = .notLive)

/-- R12: `live` becomes 1 only by a CONSTRUCT that is answered OK, and becomes 0 only by a DISPOSE or by reset. -/
def Obligations.LiveChangesOnlyByConstructDisposeReset : Prop :=
  ∀ s t : State, step s = .next t →
    (s.live = false → t.live = true →
      ∃ w rest, s.pending = .command w :: rest ∧ w.extractLsb 33 32 = 0b00#2 ∧
        t.responses = s.responses ++ [Response.mk .ok 0#32]) ∧
    (s.live = true → t.live = false →
      (∃ w rest, s.pending = .command w :: rest ∧ w.extractLsb 33 32 = 0b10#2) ∨
      ∃ f rest, s.pending = .reset f :: rest)

/-- R56: while a Generator lives, its words change only by a whole regenerate pass inside a NEXT that found the cursor
at 624, and its cursor changes only by a NEXT. -/
def Obligations.WordsChangeOnlyByRegenerateInNext : Prop :=
  ∀ (s t : State) (words words' : Buffer) (cursor cursor' : Cursor), step s = .next t →
    s.slot = .live words cursor → t.slot = .live words' cursor' →
    (words' ≠ words → cursor = 624 ∧ words' = regenerate words) ∧
    (words' ≠ words ∨ cursor' ≠ cursor →
      ∃ w rest, s.pending = .command w :: rest ∧ w.extractLsb 33 32 = 0b01#2)

/-- Every step keeps the invariant: while live the cursor is in `[1, 624]` (R15(b)), and only an OK response carries
data (R35). -/
def Obligations.StepKeepsTheCursorInvariant : Prop :=
  ∀ s t : State, CursorInvariant s → step s = .next t → CursorInvariant t

/-- Every step keeps the invariant: a live Generator holds what some seed and some number of NEXTs make (R15(e)), so
its buffer is the seeding sequence or a whole number of regenerate passes over it, never part of one (R56). -/
def Obligations.StepKeepsTheGenerationInvariant : Prop :=
  ∀ s t : State, GenerationInvariant s → step s = .next t → GenerationInvariant t

/-- Both invariants hold at reset. -/
def Obligations.ResetMeetsTheInvariants : Prop :=
  CursorInvariant State.reset ∧ GenerationInvariant State.reset

/-- R81, R87, R88: a run over everything the host does completes exactly when the host keeps its duties: no NEXT or
DISPOSE while nothing is live, and one command at a time. That the host's inputs are a list which the run exhausts, that
an overlap refuses the step, and that a command abandoned by reset counts neither as a fault nor as a breach, is the
model's (log entries 1, 8 and 18). -/
def Obligations.RunCompletesExactlyWhenHostIsLegal : Prop :=
  ∀ s : State, (∃ t, run s.pending.length s = .next t ∧ t.pending = []) ↔ Safe s

/-- R96: which open parameter each command costs, a NEXT that finds the cursor at 624 another one than every other NEXT;
and the commands with a parameter are exactly the ones that are answered, the reserved opcode apart. The spec names the
four parameters; that a CONSTRUCT answered ALLOC_FAIL costs T_CONSTRUCT too, and that the reserved opcode has none, is the
model's reading (log entry 10). The values stay open. -/
def Obligations.AnsweredCommandsHaveALatency : Prop :=
  ∀ (i : Instr) (s : State),
    ((∃ l, latency i s = some l) ↔ (∃ t, exec i s = .next t) ∧ ∀ arg, i ≠ .reservedOp3 arg) ∧
    (∀ seed, i = .construct seed → latency i s = some Config.tConstruct) ∧
    (∀ arg words cursor, i = .next arg → s.slot = .live words cursor →
      (cursor = 624 → latency i s = some Config.tNextRegen) ∧ (cursor ≠ 624 → latency i s = some Config.tNext)) ∧
    (∀ arg, i = .dispose arg → s.live = true → latency i s = some Config.tDispose)

/-! ### The assembler -/

/-- R39: a pseudo-instruction assembles to the words of its expansion: `NEXT xK` to K NEXT words, `RESEED` to DISPOSE
and then CONSTRUCT. -/
def Obligations.PseudoInstructionsExpand : Prop :=
  (∀ l : AsmLine, l.words = l.expand.flatMap AsmLine.words) ∧
  (∀ k, (AsmLine.nextTimes k).expand = List.replicate k AsmLine.next) ∧
  (∀ seed, (AsmLine.reseed seed).expand = [.dispose, .construct seed])

/-- R38, R39: the words of each line and pseudo-instruction, for every numeral in range. The ranges are the spec's; that
a line with a numeral out of range is refused is the model's choice (log entry 15). -/
def Obligations.LinesAssembleToTheirWords : Prop :=
  (∀ seed, seed < 2 ^ 32 → ∃ w, assemble [.construct seed] = some [w] ∧
    w.extractLsb 33 32 = 0b00#2 ∧ (w.extractLsb 31 0).toNat = seed) ∧
  assemble [.next] = some [0x100000000#34] ∧ assemble [.dispose] = some [0x200000000#34] ∧
  (∀ n, n < 2 ^ 34 → ∃ w, assemble [.word n] = some [w] ∧ w.toNat = n) ∧
  (∀ k, 1 ≤ k → assemble [.nextTimes k] = some (List.replicate k 0x100000000#34)) ∧
  (∀ seed, seed < 2 ^ 32 → ∃ w, assemble [.reseed seed] = some [0x200000000#34, w] ∧
    w.extractLsb 33 32 = 0b00#2 ∧ (w.extractLsb 31 0).toNat = seed) ∧
  (∀ seed, 2 ^ 32 ≤ seed → assemble [.construct seed] = none ∧ assemble [.reseed seed] = none) ∧
  (∀ n, 2 ^ 34 ≤ n → assemble [.word n] = none) ∧
  assemble [.nextTimes 0] = none

/-- R44 with R39: on a live block `RESEED seed` gives a Generator seeded from `seed`, whatever the old one held. -/
def Obligations.ReseedGivesAFreshGenerator : Prop :=
  ∀ (seed : Nat) (s : State), s.live = true → s.pending = [] →
    ∃ t, run 2 (s.present (AsmLine.reseed seed).words) = .next t ∧
      t.slot = .live (seedBuffer (BitVec.ofNat 32 seed)) 624 ∧
      t.responses = s.responses ++ [Response.mk .ok 0#32, Response.mk .ok 0#32]
end

