-- ==== Sys2Proof/Laws/Buffer.lean ====
section
/-! SUPPORT. The buffer's read and write (spec/20_memory.md rules R22 and R23), the index forms (R24), and equality of
buffers word by word. -/

namespace Sys2Proof.Machine

/-- A read returns the word most recently written to that index (R22). -/
@[simp] theorem readWord_writeWord_same (b : Buffer) (i : Index) (v : Word) :
    readWord (writeWord b i v) i = v := by
  simp [readWord, writeWord]

/-- A write replaces no other word (R23). -/
theorem readWord_writeWord_other (b : Buffer) {i j : Index} (v : Word) (h : i ≠ j) :
    readWord (writeWord b i v) j = readWord b j := by
  have hv : i.val ≠ j.val := fun e => h (Fin.ext e)
  simp [readWord, writeWord, Vector.getElem_set_ne, hv]

/-- Two buffers are equal when every word is. -/
theorem buffer_ext {a b : Buffer} (h : ∀ i : Index, readWord a i = readWord b i) : a = b :=
  Vector.ext fun i hi => h ⟨i, hi⟩

@[simp] theorem ring_val (n : Nat) : (ring n).val = n % 624 := rfl

theorem ring_of_lt {n : Nat} (h : n < 624) : (ring n).val = n := Nat.mod_eq_of_lt h

/-- Every index is the ring's image of its own value. -/
@[simp] theorem ring_index (i : Index) : ring i.val = i := Fin.ext (Nat.mod_eq_of_lt i.isLt)

theorem ring_eq_iff {m n : Nat} (hm : m < 624) (hn : n < 624) : ring m = ring n ↔ m = n := by
  rw [Fin.ext_iff, ring_of_lt hm, ring_of_lt hn]

@[simp] theorem cursorIndex_val (c : Cursor) (h : c ≠ Config.sentinel) : (cursorIndex c h).val = c.val := rfl

/-- Inside NEXT's increment the cursor comes back one higher. -/
theorem cursorIndex_succ_val (c : Cursor) (h : c ≠ Config.sentinel) :
    ((cursorIndex c h).succ : Cursor).val = c.val + 1 := rfl

end Sys2Proof.Machine
end

