-- ==== Sys2Proof/Laws/Decode.lean ====
section
/-! SUPPORT. What the decoder can answer, said once. -/

namespace Sys2Proof

/-- Bits of the opcode field (R31). -/
theorem getLsbD_opField (w : CmdWord) (k : Nat) : (opField w).getLsbD k = (decide (k < 2) && w.getLsbD (32 + k)) := by
  simp [opField]

/-- Bits of the operand field (R31). -/
theorem getLsbD_argField (w : CmdWord) (k : Nat) : (argField w).getLsbD k = (decide (k < 32) && w.getLsbD k) := by
  simp [argField]

/-- A 2-bit field is its two bits. -/
theorem two_bits_ext {a b : BitVec 2} (h1 : a.getLsbD 1 = b.getLsbD 1) (h0 : a.getLsbD 0 = b.getLsbD 0) : a = b := by
  apply BitVec.eq_of_getLsbD_eq
  intro k hk
  obtain rfl | rfl : k = 0 ∨ k = 1 := by omega
  · exact h0
  · exact h1

/-- The four rows of the decoder (spec/30_encoding.md rule R33), as an inversion lemma. -/
theorem decode_cases (w : CmdWord) :
    (opField w = 0b00#2 ∧ decode w = .construct (argField w)) ∨
    (opField w = 0b01#2 ∧ decode w = .next (argField w)) ∨
    (opField w = 0b10#2 ∧ decode w = .dispose (argField w)) ∨
    (opField w = 0b11#2 ∧ decode w = .reservedOp3 (argField w)) := by
  have g1 : (opField w).getLsbD 1 = w.getLsbD 33 := by rw [getLsbD_opField]; rfl
  have g0 : (opField w).getLsbD 0 = w.getLsbD 32 := by rw [getLsbD_opField]; rfl
  cases h33 : w.getLsbD 33 <;> cases h32 : w.getLsbD 32 <;> rw [h33] at g1 <;> rw [h32] at g0
  · exact .inl ⟨two_bits_ext g1 g0, by rw [decode, h33, h32]⟩
  · exact .inr (.inl ⟨two_bits_ext g1 g0, by rw [decode, h33, h32]⟩)
  · exact .inr (.inr (.inl ⟨two_bits_ext g1 g0, by rw [decode, h33, h32]⟩))
  · exact .inr (.inr (.inr ⟨two_bits_ext g1 g0, by rw [decode, h33, h32]⟩))

/-- A number of 34 bits decodes; a wider one is rejected. -/
theorem decodeNumber_ok {n : Nat} (h : n < 2 ^ 34) : decodeNumber n = .ok (decode (BitVec.ofNat 34 n)) := by
  exact if_pos h

theorem decodeNumber_error {n : Nat} (h : ¬ n < 2 ^ 34) : decodeNumber n = .error .widerThanCommandPort := by
  exact if_neg h

end Sys2Proof
end

