-- ==== Sys2Proof/Laws/State.lean ====
section
/-! SUPPORT. One lemma per field per update of State, so that no later proof unfolds a record update, and the small
lemmas of the lifecycle flag. -/

namespace Sys2Proof.Machine

@[simp] theorem State.setSlot_slot (s : State) (x : Slot) : (s.setSlot x).slot = x := rfl
@[simp] theorem State.setSlot_pending (s : State) (x : Slot) : (s.setSlot x).pending = s.pending := rfl
@[simp] theorem State.setSlot_responses (s : State) (x : Slot) : (s.setSlot x).responses = s.responses := rfl

@[simp] theorem State.respond_slot (s : State) (st : Status) (d : Word) : (s.respond st d).slot = s.slot := rfl
@[simp] theorem State.respond_pending (s : State) (st : Status) (d : Word) :
    (s.respond st d).pending = s.pending := rfl
@[simp] theorem State.respond_responses (s : State) (st : Status) (d : Word) :
    (s.respond st d).responses = s.responses ++ [{ status := st, data := d }] := rfl

@[simp] theorem State.present_slot (s : State) (ws : List CmdWord) : (s.present ws).slot = s.slot := rfl
@[simp] theorem State.present_pending (s : State) (ws : List CmdWord) :
    (s.present ws).pending = s.pending ++ ws.map .command := rfl
@[simp] theorem State.present_responses (s : State) (ws : List CmdWord) :
    (s.present ws).responses = s.responses := rfl

@[simp] theorem State.presentNow_slot (s : State) (n w : Nat) : (s.presentNow n w).slot = s.slot := rfl
@[simp] theorem State.presentNow_pending (s : State) (n w : Nat) :
    (s.presentNow n w).pending = .command (BitVec.ofNat 34 (w % 2 ^ n)) :: s.pending := rfl
@[simp] theorem State.presentNow_responses (s : State) (n w : Nat) :
    (s.presentNow n w).responses = s.responses := rfl

@[simp] theorem State.reset_slot : State.reset.slot = .notLive := rfl
@[simp] theorem State.reset_pending : State.reset.pending = [] := rfl
@[simp] theorem State.reset_responses : State.reset.responses = [] := rfl

@[simp] theorem resetTo_slot (rest : List HostInput) : (resetTo rest).slot = .notLive := rfl
@[simp] theorem resetTo_pending (rest : List HostInput) : (resetTo rest).pending = rest := rfl
@[simp] theorem resetTo_responses (rest : List HostInput) : (resetTo rest).responses = [] := rfl

@[simp] theorem Slot.isLive_notLive : Slot.notLive.isLive = false := rfl
@[simp] theorem Slot.isLive_live (b : Buffer) (c : Cursor) : (Slot.live b c).isLive = true := rfl

/-- `live = 0` says that the slot is empty. -/
theorem State.live_eq_false_iff (s : State) : s.live = false ↔ s.slot = .notLive := by
  unfold State.live; cases s.slot <;> simp

/-- `live = 1` says that the slot holds a buffer and a cursor. -/
theorem State.live_eq_true_iff (s : State) : s.live = true ↔ ∃ b c, s.slot = .live b c := by
  unfold State.live; cases s.slot <;> simp

theorem State.takeInput_nil {s : State} (h : s.pending = []) : s.takeInput = (none, s) := by
  simp [State.takeInput, h]

theorem State.takeInput_cons {s : State} {input : HostInput} {rest : List HostInput}
    (h : s.pending = input :: rest) : s.takeInput = (some input, { s with pending := rest }) := by
  simp [State.takeInput, h]

end Sys2Proof.Machine
end

