-- ==== Sys2Proof/Laws/Exec.lean ====
section
/-! SUPPORT. What each command answers in each lifecycle state, said once, so that no later proof unfolds a meaning. -/

namespace Sys2Proof.Machine

theorem exec_construct_notLive (seed : Word) {s : State} (h : s.slot = .notLive) :
    exec (.construct seed) s =
      .next ((s.setSlot (.live (seedBuffer seed) Config.sentinel)).respond .ok 0#32) := by
  simp [exec, execConstruct, h]

theorem exec_construct_live (seed : Word) {s : State} {b : Buffer} {c : Cursor} (h : s.slot = .live b c) :
    exec (.construct seed) s = .next (s.respond .allocFail 0#32) := by
  simp [exec, execConstruct, respondError, h]

theorem exec_next_notLive (arg : Word) {s : State} (h : s.slot = .notLive) :
    exec (.next arg) s = .fault (.useWhileNotLive (encode (.next arg))) := by
  simp [exec, execNext, raiseUseWhileNotLive, h]

theorem exec_next_live (arg : Word) {s : State} {b : Buffer} {c : Cursor} (h : s.slot = .live b c) :
    exec (.next arg) s =
      .next ((s.setSlot (.live (refill b c).1 (refill b c).2.succ)).respond .ok
        (temper (readWord (refill b c).1 (refill b c).2))) := by
  simp [exec, execNext, h]

theorem exec_dispose_notLive (arg : Word) {s : State} (h : s.slot = .notLive) :
    exec (.dispose arg) s = .fault (.useWhileNotLive (encode (.dispose arg))) := by
  simp [exec, execDispose, raiseUseWhileNotLive, h]

theorem exec_dispose_live (arg : Word) {s : State} {b : Buffer} {c : Cursor} (h : s.slot = .live b c) :
    exec (.dispose arg) s = .next ((s.setSlot .notLive).respond .ok 0#32) := by
  simp [exec, execDispose, h]

theorem exec_reservedOp3 (arg : Word) (s : State) :
    exec (.reservedOp3 arg) s = .next (s.respond .illegal 0#32) := rfl

end Sys2Proof.Machine
end

