-- ==== Sys2Proof/Laws/PerInstr.lean ====
section
/-! SUPPORT. Facts about every command, one lemma per constructor: the fields of its command word
(spec/30_encoding.md rule R31). -/

namespace Sys2Proof.Laws.EncodedFields

/-- The fields of the word of a command are its opcode and its operand bits. -/
def Statement (i : Instr) : Prop :=
  opField (encode i) = opcodeBits i ∧ argField (encode i) = operandBits i

/-- The fields of two joined fields, whatever the fields hold. -/
theorem fields_of_append (op : BitVec 2) (arg : Word) :
    opField (op ++ arg) = op ∧ argField (op ++ arg) = arg := by
  constructor
  · apply BitVec.eq_of_getLsbD_eq
    intro k hk
    simp only [opField, BitVec.getLsbD_extractLsb', BitVec.getLsbD_append]
    simp [hk]
  · apply BitVec.eq_of_getLsbD_eq
    intro k hk
    simp only [argField, BitVec.getLsbD_extractLsb', BitVec.getLsbD_append]
    simp [hk]

theorem construct (seed : Word) : Statement (.construct seed) := fields_of_append _ _
theorem next (arg : Word) : Statement (.next arg) := fields_of_append _ _
theorem dispose (arg : Word) : Statement (.dispose arg) := fields_of_append _ _
theorem reservedOp3 (arg : Word) : Statement (.reservedOp3 arg) := fields_of_append _ _

end Sys2Proof.Laws.EncodedFields
end

