-- ==== Sys2Proof/Laws/Seeding.lean ====
section
/-! SUPPORT. The words of the seeding buffer, one from the one before (spec/40_construct.md rule R41). -/

namespace Sys2Proof.Machine

/-- Consecutive words of the running recurrence. -/
theorem seedWords_getElem_succ (n i : Nat) (w : Word) (j : Nat) (h : j + 1 < (seedWords n i w).length) :
    (seedWords n i w)[j + 1] =
      seedNext (i + j + 1) ((seedWords n i w)[j]'(Nat.lt_of_succ_lt h)) := by
  induction n generalizing i w j with
  | zero => simp [seedWords] at h
  | succ n ih =>
    cases j with
    | zero =>
      cases n with
      | zero => simp [seedWords] at h
      | succ n => simp [seedWords]
    | succ j =>
      simp only [seedWords, List.getElem_cons_succ]
      rw [ih (i + 1) (seedNext (i + 1) w) j (by simpa [seedWords] using h)]
      congr 1
      omega

/-- `words[0] = seed`. -/
theorem seedBuffer_first (seed : Word) : readWord (seedBuffer seed) (ring 0) = seed := rfl

/-- `words[i + 1]` from `words[i]`. -/
theorem seedBuffer_next (seed : Word) {i : Nat} (h : i + 1 < 624) :
    readWord (seedBuffer seed) (ring (i + 1)) = seedNext (i + 1) (readWord (seedBuffer seed) (ring i)) := by
  have hi : i < 624 := Nat.lt_of_succ_lt h
  have := seedWords_getElem_succ 624 0 seed i (by rw [seedWords_length]; exact h)
  simpa [readWord, seedBuffer, Nat.mod_eq_of_lt h, Nat.mod_eq_of_lt hi] using this

end Sys2Proof.Machine
end

