-- ==== Sys2Proof/Laws/Step.lean ====
section
/-! SUPPORT. What one step can do, said once, and the unfolding of runs. -/

namespace Sys2Proof.Machine

theorem step_idle {s : State} (h : s.pending = []) : step s = .next s := by
  simp [step, State.takeInput_nil h, idle]

theorem step_reset {s : State} {f : Option CmdWord} {rest : List HostInput} (h : s.pending = .reset f :: rest) :
    step s = .next (resetTo rest) := by
  simp [step, State.takeInput_cons h, takeReset]

/-! What a step answers for each command in each lifecycle state. -/

theorem step_construct_notLive {s : State} {w : CmdWord} {rest : List HostInput} {seed : Word}
    (hp : s.pending = .command w :: rest) (hd : decode w = .construct seed) (hs : s.slot = .notLive) :
    step s = .next { slot := .live (seedBuffer seed) Config.sentinel, pending := rest,
                     responses := s.responses ++ [{ status := .ok, data := 0#32 }] } := by
  simp only [step, State.takeInput_cons hp, hd]
  exact exec_construct_notLive seed hs

theorem step_construct_live {s : State} {w : CmdWord} {rest : List HostInput} {seed : Word} {b : Buffer} {c : Cursor}
    (hp : s.pending = .command w :: rest) (hd : decode w = .construct seed) (hs : s.slot = .live b c) :
    step s = .next { slot := .live b c, pending := rest,
                     responses := s.responses ++ [{ status := .allocFail, data := 0#32 }] } := by
  simp only [step, State.takeInput_cons hp, hd, ← hs]
  exact exec_construct_live seed hs

theorem step_next_notLive {s : State} {w : CmdWord} {rest : List HostInput} {arg : Word}
    (hp : s.pending = .command w :: rest) (hd : decode w = .next arg) (hs : s.slot = .notLive) :
    step s = .fault (.useWhileNotLive (encode (.next arg))) := by
  simp only [step, State.takeInput_cons hp, hd]
  exact exec_next_notLive arg hs

theorem step_next_live {s : State} {w : CmdWord} {rest : List HostInput} {arg : Word} {b : Buffer} {c : Cursor}
    (hp : s.pending = .command w :: rest) (hd : decode w = .next arg) (hs : s.slot = .live b c) :
    step s = .next { slot := .live (refill b c).1 (refill b c).2.succ, pending := rest,
                     responses := s.responses ++
                       [{ status := .ok, data := temper (readWord (refill b c).1 (refill b c).2) }] } := by
  simp only [step, State.takeInput_cons hp, hd]
  exact exec_next_live arg hs

theorem step_dispose_notLive {s : State} {w : CmdWord} {rest : List HostInput} {arg : Word}
    (hp : s.pending = .command w :: rest) (hd : decode w = .dispose arg) (hs : s.slot = .notLive) :
    step s = .fault (.useWhileNotLive (encode (.dispose arg))) := by
  simp only [step, State.takeInput_cons hp, hd]
  exact exec_dispose_notLive arg hs

theorem step_dispose_live {s : State} {w : CmdWord} {rest : List HostInput} {arg : Word} {b : Buffer} {c : Cursor}
    (hp : s.pending = .command w :: rest) (hd : decode w = .dispose arg) (hs : s.slot = .live b c) :
    step s = .next { slot := .notLive, pending := rest,
                     responses := s.responses ++ [{ status := .ok, data := 0#32 }] } := by
  simp only [step, State.takeInput_cons hp, hd]
  exact exec_dispose_live arg hs

theorem step_reservedOp3 {s : State} {w : CmdWord} {rest : List HostInput} {arg : Word}
    (hp : s.pending = .command w :: rest) (hd : decode w = .reservedOp3 arg) :
    step s = .next { slot := s.slot, pending := rest,
                     responses := s.responses ++ [{ status := .illegal, data := 0#32 }] } := by
  simp only [step, State.takeInput_cons hp, hd]
  exact exec_reservedOp3 arg _

/-- If a step answers a next state, the host presented nothing, or reset, or a command that was performed. -/
theorem step_next_cases {s t : State} (h : step s = .next t) :
    (s.pending = [] ∧ t = s) ∨
    (∃ f rest, s.pending = .reset f :: rest ∧ t = resetTo rest) ∨
    (∃ w rest, s.pending = .command w :: rest ∧ exec (decode w) { s with pending := rest } = .next t) := by
  cases hp : s.pending with
  | nil =>
    rw [step_idle hp] at h
    exact .inl ⟨rfl, (Host.Outcome.next.inj h).symm⟩
  | cons input rest =>
    simp only [step, State.takeInput_cons hp] at h
    cases input with
    | command w => exact .inr (.inr ⟨w, rest, rfl, h⟩)
    | reset f => exact .inr (.inl ⟨f, rest, rfl, (Host.Outcome.next.inj h).symm⟩)
    | overlap a b => simp [refuseOverlap] at h

end Sys2Proof.Machine

namespace Sys2Proof

open Sys2Proof.Machine

@[simp] theorem run_zero (s : State) : run 0 s = .next s := rfl

theorem run_succ (k : Nat) (s : State) :
    run (k + 1) s =
      match step s with
      | .next t => run k t
      | .fault r => .fault r
      | .refused r => .refused r := rfl

/-- `run` is the host's run of the machine. -/
theorem run_eq_core_run (k : Nat) (s : State) : run k s = Host.Core.run Sys2Proof.core k s := by
  induction k generalizing s with
  | zero => rfl
  | succ k ih =>
    have hs : Sys2Proof.core.step s = step s := rfl
    simp only [run, Host.Core.run.eq_def Sys2Proof.core (k + 1) s, hs]
    cases step s with
    | next t => exact ih t
    | fault r => rfl
    | refused r => rfl

theorem run_succ_of_next {s t : State} (h : step s = .next t) (k : Nat) : run (k + 1) s = run k t := by
  rw [run_succ, h]

theorem run_succ_of_fault {s : State} {r : Fault} (h : step s = .fault r) (k : Nat) : run (k + 1) s = .fault r := by
  rw [run_succ, h]

theorem run_succ_of_refused {s : State} {r : Refusal} (h : step s = .refused r) (k : Nat) :
    run (k + 1) s = .refused r := by
  rw [run_succ, h]

end Sys2Proof
end

