-- ==== Sys2Proof/Laws/Twist.lean ====
section
/-! SUPPORT. What one iteration of the twist does to each word, and what NEXT's refill answers
(spec/42_regenerate.md rule R50, spec/41_next_tempering.md rule R45). -/

namespace Sys2Proof.Machine

/-- The word an iteration writes. -/
theorem twistIteration_read_self (i : Nat) (b : Buffer) :
    readWord (twistIteration i b) (loopIndex i) =
      readWord b (farIndex i) ^^^ twistTerm (readWord b (loopIndex i)) (readWord b (nextIndex i)) := by
  simp [twistIteration]

/-- An iteration writes no other word. -/
theorem twistIteration_read_other (i : Nat) (b : Buffer) {j : Index} (h : loopIndex i ≠ j) :
    readWord (twistIteration i b) j = readWord b j := by
  simp [twistIteration, readWord_writeWord_other _ _ h]

@[simp] theorem twistUpTo_zero (b : Buffer) : twistUpTo 0 b = b := rfl

theorem twistUpTo_succ (n : Nat) (b : Buffer) : twistUpTo (n + 1) b = twistIteration n (twistUpTo n b) := rfl

/-- On the sentinel the whole buffer is regenerated and the read is at index 0. -/
@[simp] theorem refill_sentinel (b : Buffer) : refill b Config.sentinel = (regenerate b, 0) := by
  simp [refill]

/-- Off the sentinel nothing is regenerated and the read is at the cursor. -/
theorem refill_of_ne (b : Buffer) {c : Cursor} (h : c ≠ Config.sentinel) : refill b c = (b, cursorIndex c h) := by
  simp [refill, h]

end Sys2Proof.Machine
end

