-- ==== Sys2Proof/Tests/Slice0.lean ====
section
/-! SUPPORT. Tests of single steps and of the shared functions, the smoke tests of the well-formedness checks, and the
witnesses of the obligations' hypotheses. Expected values come from spec/95_test_vectors.md (V1 to V9) and the worked
examples of the rules, each named in a comment. -/

namespace Sys2Proof.Tests

open Sys2Proof.Machine

/-! ### Helpers -/

/-- The state of a next outcome. -/
def next? : Result → Option State
  | .next t => some t
  | .fault _ => none
  | .refused _ => none

/-- The reason of a fault. -/
def fault? : Result → Option Fault
  | .next _ => none
  | .fault r => some r
  | .refused _ => none

/-- The response words of a next outcome. -/
def rsp? (r : Result) : Option (List RspWord) := (next? r).map fun t => t.responses.map Response.word

/-- The cursor of a next outcome. -/
def cursor? (r : Result) : Option Cursor := (next? r).bind fun t => t.slot.cursor?

/-- The word at an index of a next outcome. -/
def word? (r : Result) (i : Index) : Option Word :=
  (next? r).bind fun t => t.slot.words?.map fun b => readWord b i

/-- Whether a next outcome is live. -/
def live? (r : Result) : Option Bool := (next? r).map State.live

/-- The block after reset with this command word presented. -/
def fresh (w : CmdWord) : State := State.reset.present [w]

/-- A live block holding the seed-10 buffer of V2, at this cursor. -/
def live10 (c : Cursor) : State := { slot := .live (seedBuffer 10#32) c, pending := [], responses := [] }

/-- The same block with this command word presented. -/
def live10With (c : Cursor) (w : CmdWord) : State := (live10 c).present [w]

/-! ### Decoding, words written out from the table of spec/30_encoding.md R33 (V1) -/

theorem test_decode_construct_10 :
    decode 0b0000000000000000000000000000001010#34 = .construct 10#32 := by decide
theorem test_decode_construct_max : decode 0x0FFFFFFFF#34 = .construct 0xFFFFFFFF#32 := by decide
theorem test_decode_next : decode 0b0100000000000000000000000000000000#34 = .next 0#32 := by decide
theorem test_decode_next_any_operand : decode 0x1FFFFFFFF#34 = .next 0xFFFFFFFF#32 := by decide
theorem test_decode_dispose : decode 0b1000000000000000000000000000000000#34 = .dispose 0#32 := by decide
theorem test_decode_reserved : decode 0b1100000000000000000000000000000000#34 = .reservedOp3 0#32 := by decide
theorem test_decode_rejects_wider_number : decodeNumber (2 ^ 34) = .error .widerThanCommandPort := by decide
theorem test_decodeTableWord_reserved :
    decodeTableWord 40 0x3DEADBEEF = some (.reservedOp3 0xDEADBEEF#32) := by decide

/-! ### Well-formedness smoke: an ill-formed term for each check -/

theorem test_every_command_is_wellFormed :
    Instr.wellFormed (.construct 0#32) ∧ Instr.wellFormed (.next 1#32) ∧ Instr.wellFormed (.dispose 1#32) ∧
      Instr.wellFormed (.reservedOp3 0#32) := by decide
theorem test_assemblerForm_refuses_next_operand : Instr.assemblerForm (.next 1#32) = false := by decide
theorem test_assemblerForm_refuses_dispose_operand : Instr.assemblerForm (.dispose 1#32) = false := by decide
theorem test_assemblerForm_refuses_reserved : Instr.assemblerForm (.reservedOp3 0#32) = false := by decide
theorem test_line_refuses_wide_seed : AsmLine.wellFormed (.construct (2 ^ 32)) = false := by decide
theorem test_line_refuses_wide_reseed : AsmLine.wellFormed (.reseed (2 ^ 32)) = false := by decide
theorem test_line_refuses_wide_word : AsmLine.wellFormed (.word (2 ^ 34)) = false := by decide
theorem test_line_refuses_zero_count : AsmLine.wellFormed (.nextTimes 0) = false := by decide

/-! ### The shared functions -/

/-- V2, the step-by-step table: seed 0xFFFFFFFF, i = 1. -/
theorem test_seedNext_wraps : seedNext 1 0xFFFFFFFF#32 = 0x4FE1DA6D#32 := by decide
/-- R41, seed 10, i = 3: the previous word has its top bits 10. -/
theorem test_seedNext_logical_shift : seedNext 3 0xA0A81BE1#32 = 0xE0747B92#32 := by decide
/-- V4: bit 31 alone, where an arithmetic shift differs. -/
theorem test_temper_top_bit : temper 0x80000000#32 = 0x88102204#32 := by decide
/-- V4: a word with mixed bits. -/
theorem test_temper_deadbeef : temper 0xDEADBEEF#32 = 0xE016575D#32 := by decide
/-- V3: the combined value. -/
theorem test_combine : combine 0xB1E8B474#32 0x709C5972#32 = 0xF09C5972#32 := by decide
/-- R57, row 227 of the first pass for seed 10, which reads the rewritten `words[0]` (V9: a snapshot differs here). -/
theorem test_twist_reads_rewritten_word :
    readWord (twistUpTo 228 (seedBuffer 10#32)) 227 = 0x1A1D108A#32 := by decide +kernel
/-- R57, row 623: the words that the last iteration reads, set by hand, `words[0]` and `words[396]` already rewritten. -/
theorem test_twist_last_iteration_wraps :
    readWord (twistIteration 623
      (writeWord (writeWord (writeWord (Vector.replicate 624 0#32) 623 0x40DFBE57#32) 0 0x62533C33#32) 396 0x47A3D04F#32))
      623 = 0xEF82FE89#32 := by decide +kernel

/-! ### One step of each command -/

/-- V2 and V8 row 1: seed 10 from the reset state. -/
theorem test_construct_seeds_last_word : word? (step (fresh 0x00000000A#34)) 623 = some 0x40DFBE57#32 := by
  decide +kernel
/-- V8 row 2: CONSTRUCT 7 on a live block. -/
theorem test_construct_refused_while_live :
    rsp? (step (live10With 624 0x000000007#34)) = some [0x100000000#34] ∧
      cursor? (step (live10With 624 0x000000007#34)) = some 624 ∧
      word? (step (live10With 624 0x000000007#34)) 0 = some 0x0000000A#32 := by decide +kernel
/-- V5: the first NEXT after CONSTRUCT 10. -/
theorem test_next_first_output :
    rsp? (step (live10With 624 0x100000000#34)) = some [0x0C5754509#34] ∧
      cursor? (step (live10With 624 0x100000000#34)) = some 1 := by decide +kernel
/-- V8 row 6: NEXT after reset. -/
theorem test_next_faults_after_reset :
    fault? (step (fresh 0x1FFFFFFFF#34)) = some (.useWhileNotLive 0x1FFFFFFFF#34) := by decide
/-- V8 row 4. -/
theorem test_dispose_frees :
    rsp? (step (live10With 3 0x2ABCDEF01#34)) = some [0x000000000#34] ∧
      live? (step (live10With 3 0x2ABCDEF01#34)) = some false := by decide +kernel
/-- V8 row 7. -/
theorem test_dispose_faults_after_reset :
    fault? (step (fresh 0x200000000#34)) = some (.useWhileNotLive 0x200000000#34) := by decide
/-- V8 row 10: decode comes before the lifecycle check. -/
theorem test_reserved_is_illegal_after_reset :
    rsp? (step (fresh 0x300000000#34)) = some [0x200000000#34] ∧
      live? (step (fresh 0x300000000#34)) = some false := by decide
/-- V8 row 11. -/
theorem test_reserved_is_illegal_while_live :
    rsp? (step (live10With 1 0x3DEADBEEF#34)) = some [0x200000000#34] ∧
      cursor? (step (live10With 1 0x3DEADBEEF#34)) = some 1 := by decide +kernel

/-! ### Host inputs, the faulted condition, the assembler -/

theorem test_idle_after_reset : next? (step State.reset) = some State.reset := by decide
theorem test_withFetchWord_runs_next :
    rsp? (step (State.reset.withFetchWord 40 0x3DEADBEEF)) = some [0x200000000#34] := by decide
/-- V8 row 14 after row 6: a CONSTRUCT does not recover from the fault, reset does. -/
theorem test_reset_recovers_from_fault :
    Condition.advance (Condition.advance (Condition.advance
      (.running { State.reset with pending := [.command 0x100000000#34, .command 0x00000000A#34, .reset none] }))) =
      .running State.reset := by decide
/-- P1 and P3 in text (R38, R39). -/
theorem test_assemble_text :
    assembleText
      [['C', 'O', 'N', 'S', 'T', 'R', 'U', 'C', 'T', ' ', '0', 'x', '0', 'A', ' ', ';', ' ', 'N', 'E', 'X', 'T'],
       ['N', 'E', 'X', 'T', ' ', 'x', '2'], [], ['R', 'E', 'S', 'E', 'E', 'D', ' ', '1', '0'],
       ['.', 'w', 'o', 'r', 'd', ' ', '0', 'x', '3', 'D', 'E', 'A', 'D', 'B', 'E', 'E', 'F']] =
      some [0x00000000A#34, 0x100000000#34, 0x100000000#34, 0x200000000#34, 0x00000000A#34, 0x3DEADBEEF#34] := by decide
theorem test_assemble_text_refuses_lower_case : assembleText [['n', 'e', 'x', 't']] = none := by decide

/-! ### Witnesses: for each obligation with hypotheses, inputs that meet them all, at the boundaries of its clauses -/

theorem witness_SeedTakenAsItStands :
    (0x0FFFFFFFF#34).extractLsb 33 32 = 0b00#2 ∧ State.reset.live = false ∧ (live10 624).live = true := by decide

theorem witness_StepPerformsTheDecodedCommand :
    (fresh 0x00000000A#34).pending = .command 0x00000000A#34 :: [] := rfl

theorem witness_FetchedWordIsPerformedNext :
    (0x3FFFFFFFF : Nat) < 2 ^ 34 ∧ (0x3FFFFFFFF : Nat) < 2 ^ 40 ∧ (0 : Nat) < 2 ^ 34 := by decide

/-- One state and word for each clause of the response table. -/
theorem witness_ResponseWordOfEveryCommand :
    ((fresh 0x00000000A#34).live = false ∧ (0x00000000A#34).extractLsb 33 32 = 0b00#2) ∧
    ((live10With 624 0x000000007#34).live = true ∧ (0x000000007#34).extractLsb 33 32 = 0b00#2) ∧
    ((live10With 623 0x100000000#34).slot = .live (seedBuffer 10#32) 623 ∧
      (0x100000000#34).extractLsb 33 32 = 0b01#2) ∧
    ((fresh 0x1FFFFFFFF#34).live = false ∧ (0x1FFFFFFFF#34).extractLsb 33 32 = 0b01#2) ∧
    ((live10With 1 0x200000000#34).live = true ∧ (0x200000000#34).extractLsb 33 32 = 0b10#2) ∧
    ((fresh 0x2FFFFFFFF#34).live = false ∧ (0x2FFFFFFFF#34).extractLsb 33 32 = 0b10#2) ∧
    (0x3FFFFFFFF#34).extractLsb 33 32 = 0b11#2 :=
  ⟨by decide, by decide, ⟨rfl, by decide⟩, by decide, by decide, by decide, by decide⟩

theorem witness_ResponseWordOfStatus11 : (0x3FFFFFFFF#34).extractLsb 33 32 = 0b11#2 := by decide

theorem witness_CommandIsAnsweredOnceOrFaults :
    State.reset.live = false ∧ (0x200000000#34).extractLsb 33 32 = 0b10#2 ∧ (0x1FFFFFFFF#34).extractLsb 33 32 = 0b01#2 := by
  decide

theorem witness_ConstructSeedsTheBuffer :
    State.reset.live = false ∧ (live10 1).live = true ∧ ((1 : Nat) ≤ 1 ∧ (1 : Nat) ≤ 623) ∧ (1 : Nat) ≤ 623 := by decide

theorem witness_ConstructFailsExactlyWhenLive : (live10 624).live = true ∧ State.reset.live = false := by decide

/-- Two blocks that differ in what they have answered, in the ignored bits and in what follows. -/
theorem witness_SameSeedGivesTheSameOutputs :
    let s₁ : State := { slot := .notLive, pending := [.command (encode (.construct 5#32)), .command (encode (.next 0#32))], responses := [] }
    let s₂ : State := { slot := .notLive,
                        pending := [.command (encode (.construct 5#32)), .command (encode (.next 7#32)), .reset none],
                        responses := [Response.mk .illegal 0#32] }
    [0#32].length = [7#32].length ∧ s₁.live = false ∧ s₂.live = false ∧
      s₁.pending = .command (encode (.construct 5#32)) :: [0#32].map (fun a => .command (encode (.next a))) ++ [] ∧
      s₂.pending = .command (encode (.construct 5#32)) :: [7#32].map (fun a => .command (encode (.next a))) ++ [.reset none] :=
  ⟨rfl, rfl, rfl, rfl, rfl⟩

/-- Each clause: not live, the sentinel, and the two ends of the other cursors. -/
theorem witness_NextReadsTempersAndAdvances :
    State.reset.slot = .notLive ∧ (live10 624).slot = .live (seedBuffer 10#32) 624 ∧
      (live10 1).slot = .live (seedBuffer 10#32) 1 ∧ (1 : Cursor) ≠ 624 ∧
      (live10 623).slot = .live (seedBuffer 10#32) 623 ∧ (623 : Cursor) ≠ 624 :=
  ⟨rfl, rfl, rfl, by decide, rfl, by decide⟩

theorem witness_OutputsFollowTheCadence :
    let s : State := { slot := .notLive, pending := [.command (encode (.construct 10#32)), .command (encode (.next 1#32)), .command (encode (.dispose 0#32))], responses := [] }
    s.live = false ∧
      s.pending = .command (encode (.construct 10#32)) :: [1#32].map (fun a => .command (encode (.next a))) ++
        [.command (encode (.dispose 0#32))] := ⟨rfl, rfl⟩

theorem witness_TemperIsABijectionOfWords : temper 0#32 = 0#32 ∧ temper 0xDEADBEEF#32 = 0xE016575D#32 := by decide

theorem witness_EveryWordSelectsExactlyOneRow :
    OpcodeRow.selectedBy ⟨"NEXT", 0x100000000#34, 0x300000000#34⟩ 0x1FFFFFFFF#34 = true := by decide

/-- The boundaries of the clauses of R51: 226 and 227, 622 and 623. -/
theorem witness_RegenerateReadsOldAndNewWords :
    (0 : Nat) < 624 ∧ ((226 : Nat) < 624 ∧ (226 : Nat) ≤ 226) ∧ ((227 : Nat) < 624 ∧ (227 : Nat) ≤ 227) ∧
      ((622 : Nat) < 624 ∧ (622 : Nat) ≤ 622) ∧ (623 : Nat) < 624 ∧ (226 : Nat) < 227 := by decide

/-- The boundaries of the segments of R52. -/
theorem witness_RegenerateEqualsItsClosedForm :
    (226 : Nat) ≤ 226 ∧ ((227 : Nat) ≤ 227 ∧ (227 : Nat) ≤ 622) ∧ ((227 : Nat) ≤ 622 ∧ (622 : Nat) ≤ 622) := by decide

theorem witness_CombinedValueTakesItsBitsFromTwoWords :
    (0#32).getLsbD 0 = false ∧ (1#32).getLsbD 0 = true ∧ (30 : Nat) ≤ 30 ∧ (29 : Nat) ≤ 29 := by decide

/-- Two buffers that do differ, in the low bits of `words[0]`. -/
theorem witness_LowBitsOfTheFirstWordNeverMatter :
    let a := seedBuffer 10#32
    let b := writeWord a 0 0x7FFFFFF5#32
    (∀ j : Index, j ≠ 0 → readWord a j = readWord b j) ∧ (readWord a 0).getLsbD 31 = (readWord b 0).getLsbD 31 ∧
      readWord a 0 ≠ readWord b 0 := by
  refine ⟨fun j hj => (readWord_writeWord_other _ _ hj.symm).symm, ?_, ?_⟩
  · rw [readWord_writeWord_same]; decide
  · rw [readWord_writeWord_same]; decide

/-- The buffer of V5 whose only non-zero word is `words[0] = 0x7FFFFFFF`. -/
theorem witness_DegenerateBufferRegeneratesToZero :
    let b := writeWord (Vector.replicate 624 0#32) 0 0x7FFFFFFF#32
    (∀ j : Index, j ≠ 0 → readWord b j = 0#32) ∧ (readWord b 0).getLsbD 31 = false := by
  refine ⟨fun j hj => ?_, ?_⟩
  · rw [readWord_writeWord_other _ _ hj.symm]; simp [readWord]
  · rw [readWord_writeWord_same]; decide

/-- The boundaries of the index forms of R24. -/
theorem witness_IndexFormsStayInRange :
    (623 : Nat) ≤ 623 ∧ ((1 : Nat) ≤ 1 ∧ (1 : Nat) ≤ 623) ∧ (622 : Nat) ≤ 622 ∧ (226 : Nat) ≤ 226 ∧
      ((227 : Nat) ≤ 227 ∧ (227 : Nat) ≤ 623) ∧ (0 : Cursor) ≠ Config.sentinel ∧ (623 : Cursor) ≠ Config.sentinel := by
  decide

theorem witness_DisposeFreesTheSlot : State.reset.live = false ∧ (live10 624).live = true := by decide

/-- Two live blocks with different words and cursors. -/
theorem witness_DisposedGeneratorLeavesNoTrace :
    let p : List HostInput := [.command (encode (.dispose 0#32)), .command (encode (.construct 3#32)), .command (encode (.next 0#32))]
    let s₁ : State := { slot := .live (seedBuffer 1#32) 624, pending := p, responses := [] }
    let s₂ : State := { slot := .live (seedBuffer 2#32) 5, pending := p, responses := [] }
    s₁.live = true ∧ s₂.live = true ∧
      s₁.pending = .command (encode (.dispose 0#32)) :: .command (encode (.construct 3#32)) ::
        [0#32].map (fun x => .command (encode (.next x))) ++ [] ∧
      s₂.pending = s₁.pending := ⟨rfl, rfl, rfl, rfl⟩

theorem witness_ChecksComeInTheFixedOrder :
    ({ live10 3 with pending := [.reset none] } : State).pending = .reset none :: [] := rfl

theorem witness_ReservedOpcodeAnswersIllegal : (0x3DEADBEEF#34).extractLsb 33 32 = 0b11#2 := by decide

theorem witness_FaultExactlyOnUseWhileNotLive :
    fault? (exec (.next 1#32) State.reset) = some (.useWhileNotLive (encode (.next 1#32))) := by decide

theorem witness_FaultIsStickyUntilReset :
    ∀ g, HostInput.reset g ∉ [HostInput.command 0x00000000A#34, HostInput.overlap 0#34 0#34] := by simp

theorem witness_ResetFromAnyCondition :
    ({ live10 3 with pending := [.reset (some 0x100000000#34)] } : State).pending = .reset (some 0x100000000#34) :: [] := rfl

/-- A command of every form that answers a next state. -/
theorem witness_CommandsChangeOnlyWhatTheyWrite :
    (∃ t, exec (.construct 1#32) (live10 3) = .next t) ∧ (live10 3).live = true ∧
      (∃ t, exec (.construct 1#32) State.reset = .next t) ∧ (∃ t, exec (.reservedOp3 1#32) State.reset = .next t) ∧
      (∃ t, exec (.next 1#32) (live10 3) = .next t) ∧ (live10 3).slot = .live (seedBuffer 10#32) 3 ∧ (3 : Cursor) ≠ 624 ∧
      (∃ t, exec (.next 1#32) (live10 624) = .next t) ∧ ∃ t, exec (.dispose 1#32) (live10 3) = .next t :=
  ⟨⟨_, rfl⟩, rfl, ⟨_, rfl⟩, ⟨_, rfl⟩, ⟨_, rfl⟩, rfl, by decide, ⟨_, rfl⟩, ⟨_, rfl⟩⟩

/-- Each way `live` changes: CONSTRUCT, DISPOSE, reset. -/
theorem witness_LiveChangesOnlyByConstructDisposeReset :
    (∃ t, step (fresh 0x00000000A#34) = .next t ∧ (fresh 0x00000000A#34).live = false ∧ t.live = true) ∧
    (∃ t, step (live10With 3 0x200000000#34) = .next t ∧ (live10With 3 0x200000000#34).live = true ∧ t.live = false) ∧
    ∃ t, step { live10 3 with pending := [.reset none] } = .next t ∧ (live10 3).live = true ∧ t.live = false :=
  ⟨⟨_, step_construct_notLive rfl test_decode_construct_10 rfl, rfl, rfl⟩,
   ⟨_, step_dispose_live rfl test_decode_dispose rfl, rfl, rfl⟩, ⟨_, step_reset rfl, rfl, rfl⟩⟩

/-- A NEXT that regenerates a buffer into a different one (R57: `words[0]` becomes 0x62533C33). -/
theorem witness_WordsChangeOnlyByRegenerateInNext :
    ∃ t words', step (live10With 624 0x100000000#34) = .next t ∧
      (live10With 624 0x100000000#34).slot = .live (seedBuffer 10#32) 624 ∧ t.slot = .live words' 1 ∧
      words' ≠ seedBuffer 10#32 := by
  have h624 : (624 : Cursor) = Config.sentinel := rfl
  refine ⟨_, regenerate (seedBuffer 10#32), step_next_live rfl test_decode_next rfl, rfl, ?_, fun h => ?_⟩
  · rw [h624, refill_sentinel]; rfl
  · have h0 : readWord (regenerate (seedBuffer 10#32)) 0 ≠ 10#32 := by decide +kernel
    exact h0 ((congrArg (readWord · 0) h).trans (seedBuffer_first 10#32))

theorem witness_OnlyOverlapIsRefused :
    step { State.reset with pending := [.overlap 0x00000000A#34 0x100000000#34] } =
      .refused (.overlappingCommands 0x00000000A#34 0x100000000#34) := rfl

/-- A live state that meets the invariant and steps. -/
theorem witness_StepKeepsTheCursorInvariant :
    CursorInvariant (live10With 3 0x100000000#34) ∧ ∃ t, step (live10With 3 0x100000000#34) = .next t := by
  refine ⟨⟨fun words cursor h => ?_, by simp [live10With, live10]⟩, ⟨_, step_next_live rfl test_decode_next rfl⟩⟩
  cases h
  decide

/-- A live state of a generation and a step of it. -/
theorem witness_StepKeepsTheGenerationInvariant :
    GenerationInvariant (live10With 624 0x100000000#34) ∧ ∃ t, step (live10With 624 0x100000000#34) = .next t :=
  ⟨.inr ⟨10#32, 0, rfl⟩, ⟨_, step_next_live rfl test_decode_next rfl⟩⟩

/-- A run that keeps the host's duties, and one that does not. -/
theorem witness_RunCompletesExactlyWhenHostIsLegal :
    Safe (State.reset.present [0x00000000A#34, 0x100000000#34, 0x200000000#34]) ∧ ¬ Safe (fresh 0x100000000#34) := by
  unfold Safe; decide

/-- Log entry 18: a NEXT abandoned by reset while nothing is live is no breach of R81(c), though the same NEXT performed is. -/
theorem test_abandoned_next_is_no_breach :
    Safe { State.reset with pending := [.reset (some 0x100000000#34)] } ∧ ¬ Safe (fresh 0x100000000#34) := by
  unfold Safe; decide

theorem witness_LinesAssembleToTheirWords :
    (2 ^ 32 - 1 : Nat) < 2 ^ 32 ∧ (2 ^ 34 - 1 : Nat) < 2 ^ 34 ∧ (1 : Nat) ≤ 1 ∧ (2 ^ 32 : Nat) ≤ 2 ^ 32 ∧
      (2 ^ 34 : Nat) ≤ 2 ^ 34 := by decide

/-- A NEXT at the sentinel, a NEXT off it, and a live block. -/
theorem witness_AnsweredCommandsHaveALatency :
    (live10 624).slot = .live (seedBuffer 10#32) 624 ∧ (live10 623).slot = .live (seedBuffer 10#32) 623 ∧
      (623 : Cursor) ≠ 624 ∧ (live10 1).live = true := ⟨rfl, rfl, by decide, rfl⟩

theorem witness_ReseedGivesAFreshGenerator : (live10 3).live = true ∧ (live10 3).pending = [] := ⟨rfl, rfl⟩

end Sys2Proof.Tests
end

