-- ==== Sys2Proof/Proofs/State.lean ====
section
/-! PROOFS of the family spec/10_state.md. First what a performed command and a step can leave, said once; then the
cadence of NEXT; then the two invariants, the lifecycle flag and the reset state. -/

namespace Sys2Proof.Machine

/-- The opcode field of a word is the opcode of the command it decodes to (spec/30_encoding.md R31, R33), written with
the bit range of the statements. -/
theorem extractLsb_eq_opcodeBits_decode (w : CmdWord) : w.extractLsb 33 32 = opcodeBits (decode w) := by
  change opField w = opcodeBits (decode w)
  obtain ⟨hop, hd⟩ | ⟨hop, hd⟩ | ⟨hop, hd⟩ | ⟨hop, hd⟩ := decode_cases w <;> rw [hop, hd] <;> rfl

/-- The five ways a command is performed: if it answers a next state, one of these cases holds. A NEXT or DISPOSE of an
empty slot is missing, since it answers no next state. -/
theorem exec_next_cases {i : Instr} {s t : State} (h : exec i s = .next t) :
    (∃ seed, i = .construct seed ∧ s.slot = .notLive ∧
      t = (s.setSlot (.live (seedBuffer seed) Config.sentinel)).respond .ok 0#32) ∨
    (∃ seed b c, i = .construct seed ∧ s.slot = .live b c ∧ t = s.respond .allocFail 0#32) ∨
    (∃ arg b c, i = .next arg ∧ s.slot = .live b c ∧
      t = (s.setSlot (.live (refill b c).1 (refill b c).2.succ)).respond .ok
        (temper (readWord (refill b c).1 (refill b c).2))) ∨
    (∃ arg b c, i = .dispose arg ∧ s.slot = .live b c ∧ t = (s.setSlot .notLive).respond .ok 0#32) ∨
    (∃ arg, i = .reservedOp3 arg ∧ t = s.respond .illegal 0#32) := by
  cases i with
  | construct seed =>
    cases hs : s.slot with
    | notLive =>
      rw [exec_construct_notLive seed hs] at h
      exact .inl ⟨seed, rfl, rfl, (Host.Outcome.next.inj h).symm⟩
    | live b c =>
      rw [exec_construct_live seed hs] at h
      exact .inr (.inl ⟨seed, b, c, rfl, rfl, (Host.Outcome.next.inj h).symm⟩)
  | next arg =>
    cases hs : s.slot with
    | notLive => exact nomatch (exec_next_notLive arg hs).symm.trans h
    | live b c =>
      rw [exec_next_live arg hs] at h
      exact .inr (.inr (.inl ⟨arg, b, c, rfl, rfl, (Host.Outcome.next.inj h).symm⟩))
  | dispose arg =>
    cases hs : s.slot with
    | notLive => exact nomatch (exec_dispose_notLive arg hs).symm.trans h
    | live b c =>
      rw [exec_dispose_live arg hs] at h
      exact .inr (.inr (.inr (.inl ⟨arg, b, c, rfl, rfl, (Host.Outcome.next.inj h).symm⟩)))
  | reservedOp3 arg =>
    rw [exec_reservedOp3] at h
    exact .inr (.inr (.inr (.inr ⟨arg, rfl, (Host.Outcome.next.inj h).symm⟩)))

/-- An invariant of steps, packaged once: it holds at the reset state, says nothing of what the host does next, and is
kept by every command. -/
theorem step_keeps_of_exec_keeps {P : State → Prop} (hreset : ∀ rest, P (resetTo rest))
    (hpending : ∀ s rest, P s → P { s with pending := rest })
    (hexec : ∀ i s t, P s → exec i s = .next t → P t) {s t : State} (hs : P s) (h : step s = .next t) : P t := by
  obtain ⟨_, rfl⟩ | ⟨_, rest, _, rfl⟩ | ⟨w, rest, _, hperf⟩ := step_next_cases h
  · exact hs
  · exact hreset rest
  · exact hexec (decode w) _ t (hpending s rest hs) hperf

/-- A command that turns `live` on is a CONSTRUCT, and its answer is OK. -/
theorem exec_turns_live_on {i : Instr} {s t : State} (h : exec i s = .next t) (hs : s.live = false)
    (ht : t.live = true) : (∃ seed, i = .construct seed) ∧ t.responses = s.responses ++ [Response.mk .ok 0#32] := by
  have hempty : s.slot = .notLive := s.live_eq_false_iff.mp hs
  obtain ⟨seed, rfl, _, rfl⟩ | ⟨_, _, _, _, hl, _⟩ | ⟨_, _, _, _, hl, _⟩ | ⟨_, _, _, _, hl, _⟩ | ⟨_, _, rfl⟩ :=
    exec_next_cases h
  · exact ⟨⟨seed, rfl⟩, rfl⟩
  · exact nomatch hempty.symm.trans hl
  · exact nomatch hempty.symm.trans hl
  · exact nomatch hempty.symm.trans hl
  · exact absurd (hs.symm.trans ht) Bool.false_ne_true

/-- A command that turns `live` off is a DISPOSE. -/
theorem exec_turns_live_off {i : Instr} {s t : State} (h : exec i s = .next t) (hs : s.live = true)
    (ht : t.live = false) : ∃ arg, i = .dispose arg := by
  obtain ⟨_, _, _, rfl⟩ | ⟨_, _, _, _, _, rfl⟩ | ⟨_, _, _, _, _, rfl⟩ | ⟨arg, _, _, hi, _⟩ | ⟨_, _, rfl⟩ :=
    exec_next_cases h
  · exact absurd ht.symm Bool.false_ne_true
  · exact absurd (ht.symm.trans hs) Bool.false_ne_true
  · exact absurd ht.symm Bool.false_ne_true
  · exact ⟨arg, hi⟩
  · exact absurd (ht.symm.trans hs) Bool.false_ne_true

end Sys2Proof.Machine

namespace Sys2Proof

open Sys2Proof.Machine

/-! ### The cadence of NEXT (spec/41_next_tempering.md R48) -/

@[simp] theorem sentinel_val : Config.sentinel.val = 624 := rfl

@[simp] theorem cursorAfter_zero : cursorAfter 0 = Config.sentinel := rfl

@[simp] theorem cursorAfter_succ_val (k : Nat) : (cursorAfter (k + 1)).val = k % 624 + 1 := rfl

/-- The cursor stands at the sentinel exactly after a whole number of passes. -/
theorem cursorAfter_eq_sentinel_iff (k : Nat) : cursorAfter k = Config.sentinel ↔ k % 624 = 0 := by
  cases k with
  | zero => simp
  | succ k => rw [Fin.ext_iff, cursorAfter_succ_val, sentinel_val]; omega

/-- Within a pass the cursor is the number of words already read. -/
theorem cursorAfter_val_of_mod_ne_zero {k : Nat} (h : k % 624 ≠ 0) : (cursorAfter k).val = k % 624 := by
  cases k with
  | zero => exact absurd rfl h
  | succ k => rw [cursorAfter_succ_val]; omega

/-- After a whole number of passes the next NEXT reads from one generation more. -/
theorem bufferAfter_succ_of_mod_eq_zero (seed : Word) {k : Nat} (h : k % 624 = 0) :
    bufferAfter seed (k + 1) = regenerate (bufferAfter seed k) := by
  have hg : (k + 1 + 623) / 624 = (k + 623) / 624 + 1 := by omega
  rw [bufferAfter, hg]
  rfl

/-- Within a pass the next NEXT reads from the same generation. -/
theorem bufferAfter_succ_of_mod_ne_zero (seed : Word) {k : Nat} (h : k % 624 ≠ 0) :
    bufferAfter seed (k + 1) = bufferAfter seed k := by
  have hg : (k + 1 + 623) / 624 = (k + 623) / 624 := by omega
  rw [bufferAfter, bufferAfter, hg]

/-- What NEXT number `k + 1` reads: its generation, at index `k mod 624`. -/
theorem refill_bufferAfter_cursorAfter (seed : Word) (k : Nat) :
    refill (bufferAfter seed k) (cursorAfter k) = (bufferAfter seed (k + 1), ring k) := by
  by_cases hk : k % 624 = 0
  · have hr : ring k = 0 := Fin.ext hk
    rw [(cursorAfter_eq_sentinel_iff k).mpr hk, refill_sentinel, bufferAfter_succ_of_mod_eq_zero seed hk, hr]
  · have hc : cursorAfter k ≠ Config.sentinel := mt (cursorAfter_eq_sentinel_iff k).mp hk
    have hr : cursorIndex (cursorAfter k) hc = ring k := Fin.ext (cursorAfter_val_of_mod_ne_zero hk)
    rw [refill_of_ne _ hc, bufferAfter_succ_of_mod_ne_zero seed hk, hr]

/-! ### The generation invariant -/

/-- Reset leaves an empty slot, which meets the invariant. -/
theorem generationInvariant_resetTo (rest : List HostInput) : GenerationInvariant (resetTo rest) := .inl rfl

/-- Every command keeps it: CONSTRUCT starts the count at no NEXT, NEXT adds one to it, and DISPOSE empties the slot. -/
theorem exec_keeps_generationInvariant (i : Instr) (s t : State) (hs : GenerationInvariant s)
    (h : exec i s = .next t) : GenerationInvariant t := by
  obtain ⟨seed, _, _, rfl⟩ | ⟨_, _, _, _, _, rfl⟩ | ⟨_, b, c, _, hl, rfl⟩ | ⟨_, _, _, _, _, rfl⟩ | ⟨_, _, rfl⟩ :=
    exec_next_cases h
  · exact .inr ⟨seed, 0, rfl⟩
  · exact hs
  · obtain hn | ⟨seed, k, hk⟩ := hs
    · exact nomatch hn.symm.trans hl
    · obtain ⟨rfl, rfl⟩ := Slot.live.inj (hl.symm.trans hk)
      exact .inr ⟨seed, k + 1, by rw [refill_bufferAfter_cursorAfter]; rfl⟩
  · exact .inl rfl
  · exact hs

/-- Settles O38: the count of NEXTs since CONSTRUCT is kept by every command, and reset leaves an empty slot. -/
theorem stepKeepsTheGenerationInvariant : Obligations.StepKeepsTheGenerationInvariant := by
  intro s t hs h
  exact step_keeps_of_exec_keeps generationInvariant_resetTo (fun _ _ hp => hp) exec_keeps_generationInvariant hs h

/-! ### The cursor invariant -/

/-- Reset leaves an empty slot and no response. -/
theorem cursorInvariant_resetTo (rest : List HostInput) : CursorInvariant (resetTo rest) :=
  ⟨fun _ _ h => (nomatch h), fun _ h => (nomatch h)⟩

/-- A state that answers OK, or answers with data 0, keeps what the invariant says of responses. -/
theorem cursorInvariant_respond {s : State} {status : Status} {data : Word} (hs : CursorInvariant s)
    (hd : status ≠ .ok → data = 0#32) : CursorInvariant (s.respond status data) := by
  obtain ⟨hcursor, hdata⟩ := hs
  refine ⟨hcursor, fun r hr => ?_⟩
  rw [State.respond_responses, List.mem_append, List.mem_singleton] at hr
  obtain hr | rfl := hr
  · exact hdata r hr
  · exact hd

/-- A slot whose cursor, if it has one, is not 0 keeps what the invariant says of the slot. -/
theorem cursorInvariant_setSlot {s : State} {slot : Slot} (hs : CursorInvariant s)
    (hc : ∀ words cursor, slot = .live words cursor → cursor ≠ 0) : CursorInvariant (s.setSlot slot) :=
  ⟨hc, hs.2⟩

/-- Every command keeps it: CONSTRUCT leaves the sentinel, NEXT leaves one more than the index it read, and no command
answers an error with data. -/
theorem exec_keeps_cursorInvariant (i : Instr) (s t : State) (hs : CursorInvariant s) (h : exec i s = .next t) :
    CursorInvariant t := by
  obtain ⟨_, _, _, rfl⟩ | ⟨_, _, _, _, _, rfl⟩ | ⟨_, b, c, _, _, rfl⟩ | ⟨_, _, _, _, _, rfl⟩ | ⟨_, _, rfl⟩ :=
    exec_next_cases h
  · refine cursorInvariant_respond (cursorInvariant_setSlot hs ?_) fun _ => rfl
    rintro _ _ ⟨rfl, rfl⟩
    decide
  · exact cursorInvariant_respond hs fun _ => rfl
  · refine cursorInvariant_respond (cursorInvariant_setSlot hs ?_) fun hne => absurd rfl hne
    rintro _ _ ⟨rfl, rfl⟩
    exact Fin.succ_ne_zero _
  · refine cursorInvariant_respond (cursorInvariant_setSlot hs ?_) fun _ => rfl
    rintro _ _ ⟨⟩
  · exact cursorInvariant_respond hs fun _ => rfl

/-- Settles O37: every command keeps the invariant, reset meets it, and it says nothing of what the host does next. -/
theorem stepKeepsTheCursorInvariant : Obligations.StepKeepsTheCursorInvariant := by
  intro s t hs h
  exact step_keeps_of_exec_keeps cursorInvariant_resetTo (fun _ _ hp => hp) exec_keeps_cursorInvariant hs h

/-! ### The lifecycle flag -/

/-- Settles O35, by the three things a step to a next state can be: idle, reset, or a command performed. -/
theorem liveChangesOnlyByConstructDisposeReset : Obligations.LiveChangesOnlyByConstructDisposeReset := by
  intro s t h
  obtain ⟨_, rfl⟩ | ⟨f, rest, hp, rfl⟩ | ⟨w, rest, hp, hperf⟩ := step_next_cases h
  · exact ⟨fun hoff hon => absurd (hoff.symm.trans hon) Bool.false_ne_true,
      fun hon hoff => absurd (hoff.symm.trans hon) Bool.false_ne_true⟩
  · exact ⟨fun _ hon => absurd hon Bool.false_ne_true, fun _ _ => .inr ⟨f, rest, hp⟩⟩
  · refine ⟨fun hoff hon => ?_, fun hon hoff => ?_⟩
    · obtain ⟨⟨seed, hd⟩, hresp⟩ := exec_turns_live_on hperf hoff hon
      exact ⟨w, rest, hp, by rw [extractLsb_eq_opcodeBits_decode, hd]; rfl, hresp⟩
    · obtain ⟨arg, hd⟩ := exec_turns_live_off hperf hon hoff
      exact .inl ⟨w, rest, hp, by rw [extractLsb_eq_opcodeBits_decode, hd]; rfl⟩

/-! ### The reset state -/

/-- Settles O33: the three readings of the empty slot. -/
theorem resetStateHoldsNoGenerator : Obligations.ResetStateHoldsNoGenerator := ⟨rfl, rfl, rfl⟩

/-- Settles O39: the reset state is what reset leaves when the host does nothing afterwards. -/
theorem resetMeetsTheInvariants : Obligations.ResetMeetsTheInvariants :=
  ⟨cursorInvariant_resetTo [], generationInvariant_resetTo []⟩

end Sys2Proof
end

