-- ==== Sys2Proof/Proofs/Memory.lean ====
section
/-! PROOFS of the family spec/20_memory.md. The ring's wrap, said once, and then each index form of rule R24 off and at
its wrap. -/

namespace Sys2Proof.Machine

/-- Once round the ring: a number past its end is the index 624 lower. -/
theorem ring_of_wrap {n : Nat} (h : 624 ≤ n) : ring n = ring (n - 624) := Fin.ext (Nat.mod_eq_sub_mod h)

theorem loopIndex_val_of_lt {i : Nat} (h : i < 624) : (loopIndex i).val = i := ring_of_lt h

theorem nextIndex_val_of_lt {i : Nat} (h : i < 623) : (nextIndex i).val = i + 1 := ring_of_lt (Nat.succ_lt_succ h)

/-- The neighbour of the last word is the first one. -/
theorem nextIndex_last : nextIndex 623 = ring 0 := ring_of_wrap le_rfl

theorem farIndex_val_of_lt {i : Nat} (h : i < 227) : (farIndex i).val = i + 397 :=
  ring_of_lt (Nat.add_lt_add_right h 397)

/-- From 227 on the far word lies 227 behind, since `624 - 397 = 227`. -/
theorem farIndex_of_wrap {i : Nat} (h : 227 ≤ i) : farIndex i = ring (i - 227) := by
  have hback : i + 397 - 624 = i - 227 := Nat.add_sub_add_right i 397 227
  calc farIndex i = ring (i + 397 - 624) := ring_of_wrap (Nat.add_le_add_right h 397)
    _ = ring (i - 227) := by rw [hback]

/-- Off the sentinel the cursor is in the range of an index. -/
theorem cursor_val_lt_of_ne_sentinel {c : Cursor} (h : c ≠ Config.sentinel) : c.val < 624 := (cursorIndex c h).isLt

/-- Settles O25, form by form: each is the ring's image of a number that is in range, or one turn past it at the wrap. -/
theorem indexFormsStayInRange : Obligations.IndexFormsStayInRange := by
  refine ⟨fun i hi => ?loop, fun i h1 hi => ?previous, fun i hi => ?next, ?nextWrap, fun i hi => ?far,
    fun i h227 hi => ?farWrap, rfl, fun c h => ?cursor⟩
  case loop => exact loopIndex_val_of_lt (by omega)
  case previous => exact ⟨ring_of_lt (by omega), by omega⟩
  case next => exact nextIndex_val_of_lt (by omega)
  case nextWrap => rw [nextIndex_last, ring_of_lt (by decide)]
  case far => exact farIndex_val_of_lt (by omega)
  case farWrap => rw [farIndex_of_wrap h227, ring_of_lt (by omega)]
  case cursor => exact ⟨cursorIndex_val c h, Nat.le_of_lt_succ (cursor_val_lt_of_ne_sentinel h)⟩

end Sys2Proof.Machine
end

