-- ==== Sys2Proof/Proofs/Encoding.lean ====
section
/-! PROOFS of the family spec/30_encoding.md. First the command word: it decodes to the command that has its two
fields, and its masked bits are its opcode. Then the response word, what the decoded commands answer, how a step takes
a command word, and the assembler. -/

namespace Sys2Proof

open Sys2Proof.Machine

/-! ### The fields of a command word (R31) -/

/-- A word decodes to the command that has its opcode and its operand bits. -/
theorem decode_eq_of_fields {w : CmdWord} {i : Instr} (hop : opField w = opcodeBits i)
    (harg : argField w = operandBits i) : decode w = i := by
  have h33 : w.getLsbD 33 = (opcodeBits i).getLsbD 1 := by rw [← hop, getLsbD_opField]; rfl
  have h32 : w.getLsbD 32 = (opcodeBits i).getLsbD 0 := by rw [← hop, getLsbD_opField]; rfl
  rw [decode, h33, h32, harg]
  cases i <;> simp [opcodeBits, operandBits]

/-- The fields of a command's word are its opcode and its operand bits, whatever the command. -/
theorem fields_encode (i : Instr) : opField (encode i) = opcodeBits i ∧ argField (encode i) = operandBits i :=
  Laws.EncodedFields.fields_of_append (opcodeBits i) (operandBits i)

/-- The operand field of a word is the operand of the command it decodes to, written with the bit range of the
statements. -/
theorem extractLsb_eq_operandBits_decode (w : CmdWord) : w.extractLsb 31 0 = operandBits (decode w) := by
  change argField w = operandBits (decode w)
  obtain ⟨_, hd⟩ | ⟨_, hd⟩ | ⟨_, hd⟩ | ⟨_, hd⟩ := decode_cases w <;> rw [hd] <;> rfl

/-- Settles O1: the word of a command has the command's fields, and these two decide what it decodes to. -/
theorem decodeOfEncodeIsTheCommand : Obligations.DecodeOfEncodeIsTheCommand := by
  intro i
  obtain ⟨hop, harg⟩ := fields_encode i
  exact decode_eq_of_fields hop harg

/-- Settles O4, field by field. -/
theorem decodedCommandHasTheWordsFields : Obligations.DecodedCommandHasTheWordsFields := fun w =>
  ⟨(extractLsb_eq_opcodeBits_decode w).symm, (extractLsb_eq_operandBits_decode w).symm⟩

/-- Settles O6: each word written out has the two fields of its command. -/
theorem sampleWordsDecodeToTheirCommands : Obligations.SampleWordsDecodeToTheirCommands :=
  ⟨decode_eq_of_fields rfl rfl, decode_eq_of_fields rfl rfl, decode_eq_of_fields rfl rfl,
    decode_eq_of_fields rfl rfl, decode_eq_of_fields rfl rfl⟩

/-! ### The opcode map (R33) -/

/-- A word is its two fields joined. -/
theorem opField_append_argField (w : CmdWord) : opField w ++ argField w = w :=
  BitVec.extractLsb'_append_extractLsb' (w := 2) (len := 32)

/-- The mask of the opcode map keeps the opcode and clears the operand. -/
theorem and_opcodeMask (w : CmdWord) : w &&& 0x300000000#34 = opField w ++ 0#32 := by
  calc w &&& 0x300000000#34
    _ = (opField w ++ argField w) &&& (BitVec.allOnes 2 ++ 0#32) := by rw [opField_append_argField]; rfl
    _ = opField w ++ 0#32 := by rw [BitVec.and_append, BitVec.and_allOnes, BitVec.and_zero]

theorem OpcodeRow.selectedBy_iff (r : OpcodeRow) (c : CmdWord) : r.selectedBy c = true ↔ c &&& r.mask = r.pattern :=
  beq_iff_eq

/-- A row with the opcode mask is selected by a word whose opcode its pattern holds. -/
theorem OpcodeRow.selectedBy_of_opField {r : OpcodeRow} {c : CmdWord} {op : BitVec 2} (hop : opField c = op)
    (hmask : r.mask = 0x300000000#34) (hpattern : r.pattern = op ++ 0#32) : r.selectedBy c = true := by
  rw [OpcodeRow.selectedBy_iff, hmask, and_opcodeMask, hop, hpattern]

/-- Some row is selected: the one of the command the word decodes to. -/
theorem exists_row_selectedBy (c : CmdWord) :
    ∃ r ∈ opcodeTable, r.selectedBy c = true ∧ r.mnemonic = (decode c).mnemonic := by
  obtain ⟨hop, hd⟩ | ⟨hop, hd⟩ | ⟨hop, hd⟩ | ⟨hop, hd⟩ := decode_cases c <;> rw [hd]
  · exact ⟨⟨"CONSTRUCT", _, _⟩, .head _, OpcodeRow.selectedBy_of_opField hop rfl rfl, rfl⟩
  · exact ⟨⟨"NEXT", _, _⟩, .tail _ (.head _), OpcodeRow.selectedBy_of_opField hop rfl rfl, rfl⟩
  · exact ⟨⟨"DISPOSE", _, _⟩, .tail _ (.tail _ (.head _)), OpcodeRow.selectedBy_of_opField hop rfl rfl, rfl⟩
  · exact ⟨⟨"RESERVED_OP3", _, _⟩, .tail _ (.tail _ (.tail _ (.head _))),
      OpcodeRow.selectedBy_of_opField hop rfl rfl, rfl⟩

theorem opcodeTable_mask : ∀ r ∈ opcodeTable, r.mask = 0x300000000#34 := by decide

/-- No two rows of the map have one pattern. -/
theorem opcodeTable_eq_of_pattern_eq : ∀ r ∈ opcodeTable, ∀ r' ∈ opcodeTable, r.pattern = r'.pattern → r = r' := by
  decide

/-- At most one row is selected: the rows share the mask, so two that a word selects have one pattern. -/
theorem opcodeTable_eq_of_selectedBy {r r' : OpcodeRow} {c : CmdWord} (hr : r ∈ opcodeTable) (hr' : r' ∈ opcodeTable)
    (h : r.selectedBy c = true) (h' : r'.selectedBy c = true) : r = r' := by
  rw [OpcodeRow.selectedBy_iff, opcodeTable_mask r hr] at h
  rw [OpcodeRow.selectedBy_iff, opcodeTable_mask r' hr'] at h'
  exact opcodeTable_eq_of_pattern_eq r hr r' hr' (h.symm.trans h')

/-- Settles O3: some row is selected, the one of the decoded command, and at most one. -/
theorem everyWordSelectsExactlyOneRow : Obligations.EveryWordSelectsExactlyOneRow := by
  refine ⟨rfl, OpcodeRow.selectedBy_iff, fun c => ?_⟩
  obtain ⟨r, hr, hsel, hname⟩ := exists_row_selectedBy c
  exact ⟨r, hr, hsel, hname, fun r' hr' hsel' => opcodeTable_eq_of_selectedBy hr' hr hsel' hsel⟩

end Sys2Proof

namespace Sys2Proof.Machine

/-! ### The response word (R35, R36) -/

/-- A status is read back from its code. -/
@[simp] theorem Status.ofBits?_bits (st : Status) : Status.ofBits? st.bits = some st := by
  cases st <;> rfl

theorem Status.bits_ne_three (st : Status) : st.bits ≠ 0b11#2 := by
  cases st <;> decide

/-- The fields of a response word are the status code and the data. -/
theorem Response.fields_word (r : Response) :
    r.word.extractLsb 33 32 = r.status.bits ∧ r.word.extractLsb 31 0 = r.data :=
  Laws.EncodedFields.fields_of_append r.status.bits r.data

/-- What a host reads depends on a response word's two fields alone. -/
theorem Response.ofWord?_eq (w : RspWord) :
    Response.ofWord? w = (Status.ofBits? (w.extractLsb 33 32)).map fun st => ⟨st, w.extractLsb 31 0⟩ := rfl

/-- A response is read back from its word. -/
theorem Response.ofWord?_word (r : Response) : Response.ofWord? r.word = some r := by
  obtain ⟨hstatus, hdata⟩ := r.fields_word
  rw [Response.ofWord?_eq, hstatus, hdata, Status.ofBits?_bits]
  rfl

theorem Response.extractLsb_word_ne_three (r : Response) : r.word.extractLsb 33 32 ≠ 0b11#2 :=
  r.fields_word.1 ▸ Status.bits_ne_three r.status

/-- Settles O7 by the two fields of the response word; the code `11` is the one that is no status's. -/
theorem responseWordCarriesStatusAndData : Obligations.ResponseWordCarriesStatusAndData := by
  refine ⟨fun r => ⟨r.fields_word.2, r.extractLsb_word_ne_three, r.ofWord?_word⟩,
    fun d => (Response.mk .ok d).fields_word.1, fun d => (Response.mk .allocFail d).fields_word.1,
    fun d => (Response.mk .illegal d).fields_word.1, fun w h => ?_⟩
  rw [Response.ofWord?_eq, h]
  rfl

/-! ### What the decoded commands answer (R32, R34, R36) -/

/-- A response adds its word to the words already answered. -/
theorem State.map_word_respond (s : State) (st : Status) (d : Word) :
    (s.respond st d).responses.map Response.word = s.responses.map Response.word ++ [st.bits ++ d] :=
  List.map_append

/-- What NEXT answers, from what its refill answers. -/
theorem exec_next_of_refill (arg : Word) {s : State} {b b' : Buffer} {c : Cursor} {j : Index}
    (hs : s.slot = .live b c) (hr : refill b c = (b', j)) :
    exec (.next arg) s = .next ((s.setSlot (.live b' j.succ)).respond .ok (temper (readWord b' j))) := by
  rw [exec_next_live arg hs, hr]

/-- A word is answered as the command that has its two fields. -/
theorem exec_decode_of_fields {w : CmdWord} {i : Instr} {s : State} {r : Result} (h : exec i s = r)
    (hop : opField w = opcodeBits i) (harg : argField w = operandBits i) : exec (decode w) s = r := by
  rw [decode_eq_of_fields hop harg, h]

/-- A word performed as the command with its two fields is answered by that command's response word. -/
theorem exec_decode_answers {w : CmdWord} {i : Instr} {s t : State} {st : Status} {d : Word}
    (h : exec i s = .next (t.respond st d)) (hop : opField w = opcodeBits i) (harg : argField w = operandBits i)
    (hp : t.pending = s.pending) (hr : t.responses = s.responses) :
    ∃ u, exec (decode w) s = .next u ∧
      u.responses.map Response.word = s.responses.map Response.word ++ [st.bits ++ d] ∧
      u.slot = t.slot ∧ u.pending = s.pending :=
  ⟨_, exec_decode_of_fields h hop harg, hr ▸ State.map_word_respond t st d, rfl, hp⟩

/-- Settles O10, row by row of R36's table: the opcode decides the command, and the lifecycle state its answer. -/
theorem responseWordOfEveryCommand : Obligations.ResponseWordOfEveryCommand := by
  refine ⟨Response.extractLsb_word_ne_three, fun s w => ?_⟩
  intro answers
  refine ⟨fun hop hs => ?constructFree, fun hop hs => ?constructLive, fun hop words cursor hs => ?nextLive,
    fun hop hs => ?nextFree, fun hop hs => ?disposeLive, fun hop hs => ?disposeFree, fun hop => ?reserved⟩
  case constructFree =>
    rw [s.live_eq_false_iff] at hs
    exact exec_decode_answers (exec_construct_notLive _ hs) hop rfl rfl rfl
  case constructLive =>
    obtain ⟨b, c, hs⟩ := s.live_eq_true_iff.mp hs
    exact exec_decode_answers (exec_construct_live _ hs) hop rfl rfl rfl
  case nextLive =>
    rcases hr : refill words cursor with ⟨words', j⟩
    exact exec_decode_answers (st := .ok) (exec_next_of_refill _ hs hr) hop rfl rfl rfl
  case nextFree =>
    rw [s.live_eq_false_iff] at hs
    exact ⟨_, exec_decode_of_fields (exec_next_notLive _ hs) hop rfl⟩
  case disposeLive =>
    obtain ⟨b, c, hs⟩ := s.live_eq_true_iff.mp hs
    exact exec_decode_answers (exec_dispose_live _ hs) hop rfl rfl rfl
  case disposeFree =>
    rw [s.live_eq_false_iff] at hs
    exact ⟨_, exec_decode_of_fields (exec_dispose_notLive _ hs) hop rfl⟩
  case reserved => exact exec_decode_answers (exec_reservedOp3 _ s) hop rfl rfl rfl

/-- Settles O5: the seed is the operand field itself, and what NEXT and DISPOSE answer names the operand only in a
fault. -/
theorem seedTakenAsItStandsAndOtherOperandsIgnored : Obligations.SeedTakenAsItStandsAndOtherOperandsIgnored := by
  refine ⟨fun w hop => decode_eq_of_fields hop rfl, fun seed s hs => ?construct, fun a b s hs => ?operandsLive,
    fun a s hs => ?operandsFree, rfl, rfl⟩
  case construct =>
    rw [s.live_eq_false_iff] at hs
    exact ⟨_, exec_construct_notLive seed hs, rfl, rfl⟩
  case operandsLive =>
    obtain ⟨words, cursor, hs⟩ := s.live_eq_true_iff.mp hs
    exact ⟨(exec_next_live a hs).trans (exec_next_live b hs).symm,
      (exec_dispose_live a hs).trans (exec_dispose_live b hs).symm⟩
  case operandsFree =>
    rw [s.live_eq_false_iff] at hs
    exact ⟨⟨_, exec_next_notLive a hs⟩, ⟨_, exec_dispose_notLive a hs⟩⟩

/-- Settles O28: the opcode `11` is the reserved command's, and its answer does not look at the slot. -/
theorem reservedOpcodeAnswersIllegal : Obligations.ReservedOpcodeAnswersIllegal := by
  intro s w hop
  have hd : decode w = .reservedOp3 (w.extractLsb 31 0) := decode_eq_of_fields hop rfl
  exact ⟨hd, hd ▸ exec_reservedOp3 _ s⟩

/-! ### How a step takes a command word (R30) -/

/-- With a command word next, a step is the decoded command on the state without that input. -/
theorem step_command {s : State} {w : CmdWord} {rest : List HostInput} (hp : s.pending = .command w :: rest) :
    step s = exec (decode w) { s with pending := rest } := by
  simp only [step, State.takeInput_cons hp]

/-- Settles O8, by the equation of a step that takes a command word. -/
theorem stepPerformsTheDecodedCommand : Obligations.StepPerformsTheDecodedCommand := fun _ _ _ => step_command

/-- A number that fits its width is presented as the word it is. -/
theorem State.withFetchWord_pending (s : State) {n w : Nat} (hn : w < 2 ^ n) :
    (s.withFetchWord n w).pending = .command (BitVec.ofNat 34 w) :: s.pending := by
  rw [State.withFetchWord, State.presentNow_pending, Nat.mod_eq_of_lt hn]

/-- A number that fits its width and the port decodes as the word it is. -/
theorem decodeTableWord_of_lt {n w : Nat} (hn : w < 2 ^ n) (hw : w < 2 ^ 34) :
    decodeTableWord n w = some (decode (BitVec.ofNat 34 w)) := by
  rw [decodeTableWord, Nat.mod_eq_of_lt hn, decodeNumber_ok hw]

/-- Settles O9: the word presented is taken off again by the step that performs it. -/
theorem fetchedWordIsPerformedNext : Obligations.FetchedWordIsPerformedNext := fun s _ _ hn hw =>
  ⟨step_command (s.withFetchWord_pending hn), decodeTableWord_of_lt hn hw⟩

/-! ### The assembler (R38, R39) -/

/-- Settles O42: a plain line is its own expansion, and the two pseudo-instructions give the words of their lines. -/
theorem pseudoInstructionsExpand : Obligations.PseudoInstructionsExpand := by
  refine ⟨fun l => ?_, fun _ => rfl, fun _ => rfl⟩
  cases l with
  | nextTimes k =>
    rw [AsmLine.expand, List.flatMap_replicate]
    exact List.flatten_replicate_singleton.symm
  | construct seed => rfl
  | next => rfl
  | dispose => rfl
  | word n => rfl
  | reseed seed => rfl

/-- A line in range assembles to its words. -/
theorem assemble_singleton {l : AsmLine} (h : l.wellFormed = true) : assemble [l] = some l.words := by
  simp [assemble, h]

/-- A line out of range is refused. -/
theorem assemble_singleton_none {l : AsmLine} (h : l.wellFormed = false) : assemble [l] = none := by
  simp [assemble, h]

/-- The CONSTRUCT word of a seed in range has opcode 00 and the seed as its operand. -/
theorem fields_encode_construct_ofNat {seed : Nat} (h : seed < 2 ^ 32) :
    (encode (.construct (BitVec.ofNat 32 seed))).extractLsb 33 32 = 0b00#2 ∧
      ((encode (.construct (BitVec.ofNat 32 seed))).extractLsb 31 0).toNat = seed := by
  obtain ⟨hop, harg⟩ := fields_encode (.construct (BitVec.ofNat 32 seed))
  exact ⟨hop, (congrArg BitVec.toNat harg).trans ((BitVec.toNat_ofNat ..).trans (Nat.mod_eq_of_lt h))⟩

/-- Settles O43, line by line: a line in range assembles to its words, and one out of range is refused. -/
theorem linesAssembleToTheirWords : Obligations.LinesAssembleToTheirWords := by
  refine ⟨fun seed h => ?construct, rfl, rfl, fun n h => ?word, fun k h => ?nextTimes, fun seed h => ?reseed,
    fun seed h => ?wideSeed, fun n h => ?wideWord, rfl⟩
  case construct => exact ⟨_, assemble_singleton (decide_eq_true h), fields_encode_construct_ofNat h⟩
  case word => exact ⟨_, assemble_singleton (decide_eq_true h), (BitVec.toNat_ofNat ..).trans (Nat.mod_eq_of_lt h)⟩
  case nextTimes => exact assemble_singleton (decide_eq_true h)
  case reseed => exact ⟨_, assemble_singleton (decide_eq_true h), fields_encode_construct_ofNat h⟩
  case wideSeed =>
    have hwide : decide (seed < 2 ^ 32) = false := decide_eq_false h.not_gt
    exact ⟨assemble_singleton_none hwide, assemble_singleton_none hwide⟩
  case wideWord => exact assemble_singleton_none (decide_eq_false h.not_gt)

end Sys2Proof.Machine
end

