-- ==== Sys2Proof/Proofs/Construct.lean ====
section
/-! PROOFS of the family spec/40_construct.md. First the seeding recurrence in the arithmetic of numbers and what
CONSTRUCT answers; then the runs a CONSTRUCT begins: a CONSTRUCT and its NEXTs, and a DISPOSE and a CONSTRUCT. -/

namespace Sys2Proof.Machine

/-! ### CONSTRUCT and its recurrence (R40, R41, R44) -/

/-- One step of the recurrence in numbers: the right shift is a division, and the product and the sum wrap once. -/
theorem toNat_seedNext (i : Nat) (prev : Word) :
    (seedNext i prev).toNat = (1812433253 * (prev.toNat ^^^ prev.toNat / 2 ^ 30) + i) % 2 ^ 32 := by
  simp [seedNext, zext32, Config.F, Config.seedShift, Nat.shiftRight_eq_div_pow]

/-- Settles O13: what CONSTRUCT answers in each lifecycle state, and the recurrence of the seeded buffer in numbers. -/
theorem constructSeedsTheBuffer : Obligations.ConstructSeedsTheBuffer := by
  refine ⟨fun seed s hs => ?free, fun seed s hs => ?live⟩
  case free =>
    rw [s.live_eq_false_iff] at hs
    refine ⟨seedBuffer seed, exec_construct_notLive seed hs, seedBuffer_first seed, fun i h1 hi => ?_⟩
    obtain ⟨j, rfl⟩ := Nat.exists_eq_add_of_le' h1
    rw [seedBuffer_next seed (Nat.lt_succ_of_le hi), toNat_seedNext, Nat.add_sub_cancel]
  case live =>
    obtain ⟨b, c, hs⟩ := s.live_eq_true_iff.mp hs
    exact exec_construct_live seed hs

/-- Settles O14: the slot decides the answer, and the seed has no part in it. -/
theorem constructFailsExactlyWhenLive : Obligations.ConstructFailsExactlyWhenLive := by
  intro seed s
  cases hs : s.slot with
  | notLive =>
    have hlive : s.live = false := s.live_eq_false_iff.mpr hs
    exact ⟨_, _, exec_construct_notLive seed hs, rfl, by simp [hlive], by simp [hlive], by simp [hlive]⟩
  | live b c =>
    have hlive : s.live = true := s.live_eq_true_iff.mpr ⟨b, c, hs⟩
    exact ⟨_, _, exec_construct_live seed hs, rfl, by simp [hlive], by simp [hlive], fun _ => hs⟩

end Sys2Proof.Machine

namespace Sys2Proof

open Sys2Proof.Machine

/-! ### Runs that begin with CONSTRUCT (R43, R44) -/

@[simp] theorem decode_encode (i : Instr) : decode (encode i) = i := decodeOfEncodeIsTheCommand i

/-- After a CONSTRUCT and `k` NEXTs, further NEXTs walk on through the generations and answer the outputs from number
`k` on, whatever their operand bits are. -/
theorem run_nexts_of_generation (seed : Word) (args : List Word) {k : Nat} {s : State} {rest : List HostInput}
    (hs : s.slot = .live (bufferAfter seed k) (cursorAfter k))
    (hp : s.pending = args.map (fun a => .command (encode (.next a))) ++ rest) :
    run args.length s = .next
      { slot := .live (bufferAfter seed (k + args.length)) (cursorAfter (k + args.length)), pending := rest,
        responses := s.responses ++
          (List.range' k args.length).map fun j => Response.mk .ok (outputWord seed j) } := by
  induction args generalizing k s with
  | nil =>
    obtain ⟨slot, pending, responses⟩ := s
    cases hs
    cases hp
    simp
  | cons a args ih =>
    have hstep := step_next_live hp (decode_encode _) hs
    rw [refill_bufferAfter_cursorAfter] at hstep
    rw [List.length_cons, run_succ_of_next hstep, ih (k := k + 1) rfl rfl, List.range'_succ]
    simp [outputWord, Nat.add_assoc, Nat.add_comm 1]

/-- A CONSTRUCT of a free slot and the NEXTs after it: the final state is the seed's and the number of NEXTs' alone, but
for what stood in the two lists before. -/
theorem run_construct_nexts (seed : Word) (args : List Word) {s : State} {rest : List HostInput} (hs : s.live = false)
    (hp : s.pending = .command (encode (.construct seed)) :: args.map (fun a => .command (encode (.next a))) ++ rest) :
    run (args.length + 1) s = .next
      { slot := .live (bufferAfter seed args.length) (cursorAfter args.length), pending := rest,
        responses := s.responses ++ Response.mk .ok 0#32 ::
          (List.range args.length).map fun j => Response.mk .ok (outputWord seed j) } := by
  have hstep := step_construct_notLive hp (decode_encode _) (s.live_eq_false_iff.mp hs)
  rw [run_succ_of_next hstep, run_nexts_of_generation seed args (k := 0) rfl rfl]
  simp [List.range_eq_range']

/-- Settles O15: both final states are named by the seed and the number of NEXTs. -/
theorem sameSeedGivesTheSameOutputs : Obligations.SameSeedGivesTheSameOutputs := by
  intro seed args₁ args₂ s₁ s₂ rest₁ rest₂ hlen hs₁ hs₂ hp₁ hp₂
  have hrun₂ := run_construct_nexts seed args₂ hs₂ hp₂
  rw [← hlen] at hrun₂ ⊢
  exact ⟨_, _, _, run_construct_nexts seed args₁ hs₁ hp₁, hrun₂, rfl, rfl, by simp, rfl, rfl⟩

/-- On a live block a DISPOSE and a CONSTRUCT leave the seed's Generator, whatever the old one held. -/
theorem run_dispose_construct (a seed : Word) (k : Nat) {s : State} {rest : List HostInput} (hs : s.live = true)
    (hp : s.pending = .command (encode (.dispose a)) :: .command (encode (.construct seed)) :: rest) :
    run (k + 2) s = run k
      { slot := .live (seedBuffer seed) Config.sentinel, pending := rest,
        responses := s.responses ++ [Response.mk .ok 0#32, Response.mk .ok 0#32] } := by
  obtain ⟨b, c, hs⟩ := s.live_eq_true_iff.mp hs
  rw [run_succ_of_next (step_dispose_live hp (decode_encode _) hs),
    run_succ_of_next (step_construct_notLive rfl (decode_encode _) rfl), List.append_assoc]
  rfl

/-- Settles O44: `RESEED` is a DISPOSE and a CONSTRUCT, and with nothing else pending these two words are the run. -/
theorem reseedGivesAFreshGenerator : Obligations.ReseedGivesAFreshGenerator := by
  intro seed s hs hempty
  have hp : (s.present (AsmLine.reseed seed).words).pending = (AsmLine.reseed seed).words.map .command := by
    rw [State.present_pending, hempty, List.nil_append]
  exact ⟨_, run_dispose_construct 0#32 (BitVec.ofNat 32 seed) 0 hs hp, rfl, rfl⟩

end Sys2Proof
end

