-- ==== Sys2Proof/Proofs/Next.lean ====
section
/-! PROOFS of the family spec/41_next_tempering.md. First tempering: its steps are bijections, and it is four steps in
the arithmetic of numbers. Then what NEXT reads and answers, the cadence of its outputs, and the frames of the
commands. -/

namespace Sys2Proof.Machine

/-! ### Tempering is a bijection (R46, R49) -/

/-- The idea behind every tempering step: it XORs a word with a linear image of itself, and such a step loses nothing
when the image fixes no word but 0. -/
theorem injective_xor_of_linear {f : Word → Word} (hlin : ∀ a b, f (a ^^^ b) = f a ^^^ f b)
    (hfix : ∀ d, f d = d → d = 0#32) : Function.Injective fun y => y ^^^ f y := by
  intro a b (hab : a ^^^ f a = b ^^^ f b)
  have hzero : f (a ^^^ b) ^^^ (a ^^^ b) = 0#32 := by
    calc f (a ^^^ b) ^^^ (a ^^^ b)
      _ = (a ^^^ f a) ^^^ (b ^^^ f b) := by rw [hlin]; ac_rfl
      _ = 0#32 := by rw [hab, BitVec.xor_self]
  exact BitVec.xor_eq_zero_iff.mp (hfix _ (BitVec.xor_eq_zero_iff.mp hzero))

/-- A right shift, being a division, fixes no word but 0. -/
theorem eq_zero_of_shiftRight_eq {n : Nat} (hn : n ≠ 0) {d : Word} (h : d >>> n = d) : d = 0#32 := by
  have hdiv : d.toNat / 2 ^ n = d.toNat := by rw [← Nat.shiftRight_eq_div_pow, ← BitVec.toNat_ushiftRight, h]
  refine BitVec.eq_of_toNat_eq ((Nat.div_eq_self.mp hdiv).resolve_right ?_)
  exact (Nat.one_lt_two_pow hn).ne'

/-- A masked left shift fixes no word but 0: each bit is a copy of a lower one, and there is no lowest. -/
theorem eq_zero_of_shiftLeft_and_eq {n : Nat} (hn : n ≠ 0) (m : Word) {d : Word} (h : (d <<< n) &&& m = d) :
    d = 0#32 := by
  have hbit : ∀ k, d.getLsbD k = false := by
    intro k
    induction k using Nat.strong_induction_on with
    | _ k ih =>
      rw [← h, BitVec.getLsbD_and, BitVec.getLsbD_shiftLeft]
      by_cases hk : k < n
      · simp [hk]
      · simp [ih (k - n) (by omega)]
  exact BitVec.eq_of_getLsbD_eq fun k _ => by rw [hbit k, BitVec.getLsbD_zero]

theorem injective_xor_shiftRight {n : Nat} (hn : n ≠ 0) : Function.Injective fun y : Word => y ^^^ (y >>> n) :=
  injective_xor_of_linear (fun a b => BitVec.ushiftRight_xor_distrib a b n) fun _ => eq_zero_of_shiftRight_eq hn

/-- A masked left shift is linear. -/
theorem xor_shiftLeft_and (a b m : Word) (n : Nat) :
    ((a ^^^ b) <<< n) &&& m = ((a <<< n) &&& m) ^^^ ((b <<< n) &&& m) := by
  rw [BitVec.shiftLeft_xor_distrib]
  exact BitVec.eq_of_toNat_eq (by simp only [BitVec.toNat_and, BitVec.toNat_xor, Nat.and_xor_distrib_right])

theorem injective_xor_shiftLeft_and {n : Nat} (hn : n ≠ 0) (m : Word) :
    Function.Injective fun y : Word => y ^^^ ((y <<< n) &&& m) :=
  injective_xor_of_linear (fun a b => xor_shiftLeft_and a b m n) fun _ => eq_zero_of_shiftLeft_and_eq hn m

theorem temper1_injective : Function.Injective temper1 := injective_xor_shiftRight (n := Config.temperU) (by decide)

theorem temper2_injective : Function.Injective temper2 :=
  injective_xor_shiftLeft_and (n := Config.temperS) (by decide) Config.temperB

theorem temper3_injective : Function.Injective temper3 :=
  injective_xor_shiftLeft_and (n := Config.temperT) (by decide) Config.temperC

theorem temper4_injective : Function.Injective temper4 := injective_xor_shiftRight (n := Config.temperL) (by decide)

/-- No two words have the same tempered image, so on the finitely many words tempering reaches them all. -/
theorem temper_bijective : Function.Bijective temper :=
  Finite.injective_iff_bijective.mp
    (temper4_injective.comp (temper3_injective.comp (temper2_injective.comp temper1_injective)))

/-- Settles O18: tempering is a bijection, since each of its steps is one to one. -/
theorem temperIsABijectionOfWords : Obligations.TemperIsABijectionOfWords := temper_bijective.existsUnique

/-! ### Tempering in the arithmetic of numbers (R46) -/

theorem toNat_xor_shiftRight (y : Word) (n : Nat) : (y ^^^ (y >>> n)).toNat = y.toNat ^^^ (y.toNat / 2 ^ n) := by
  rw [BitVec.toNat_xor, BitVec.toNat_ushiftRight, Nat.shiftRight_eq_div_pow]

theorem toNat_xor_shiftLeft_and (y m : Word) (n : Nat) :
    (y ^^^ ((y <<< n) &&& m)).toNat = y.toNat ^^^ ((y.toNat * 2 ^ n % 2 ^ 32) &&& m.toNat) := by
  rw [BitVec.toNat_xor, BitVec.toNat_and, BitVec.toNat_shiftLeft, Nat.shiftLeft_eq]

/-- Settles O17: the numbers of the rule are those of the words after each step. -/
theorem temperIsFourStepsInOrder : Obligations.TemperIsFourStepsInOrder := fun y =>
  ⟨(temper1 y).toNat, (temper2 (temper1 y)).toNat, (temper3 (temper2 (temper1 y))).toNat,
    toNat_xor_shiftRight _ _, toNat_xor_shiftLeft_and _ _ _, toNat_xor_shiftLeft_and _ _ _, toNat_xor_shiftRight _ _⟩

/-! ### What NEXT reads and answers (R45, R48) -/

/-- Settles O16: whether the cursor is the sentinel decides what the refill answers. -/
theorem nextReadsTempersAndAdvances : Obligations.NextReadsTempersAndAdvances := by
  refine fun arg s => ⟨exec_next_notLive arg, fun words cursor hs => ?_⟩
  by_cases hc : cursor = Config.sentinel
  · subst hc
    exact ⟨regenerate words, 0, Fin.succ 0, fun _ => ⟨rfl, rfl⟩, fun hne => absurd rfl hne, rfl,
      exec_next_of_refill arg hs (refill_sentinel words)⟩
  · exact ⟨words, cursorIndex cursor hc, _, fun heq => absurd heq hc, fun _ => ⟨rfl, rfl⟩,
      cursorIndex_succ_val cursor hc, exec_next_of_refill arg hs (refill_of_ne words hc)⟩

/-- Settles O19: it is the run of a CONSTRUCT and its NEXTs. -/
theorem outputsFollowTheCadence : Obligations.OutputsFollowTheCadence := fun seed args _ _ =>
  run_construct_nexts seed args

/-! ### What the commands leave unchanged (R45, R47, R71) -/

/-- A performed command takes nothing from what the host does next, and answers once. -/
theorem exec_next_pending_responses {i : Instr} {s t : State} (h : exec i s = .next t) :
    t.pending = s.pending ∧ ∃ r, t.responses = s.responses ++ [r] := by
  obtain ⟨_, _, _, rfl⟩ | ⟨_, _, _, _, _, rfl⟩ | ⟨_, _, _, _, _, rfl⟩ | ⟨_, _, _, _, _, rfl⟩ | ⟨_, _, rfl⟩ :=
    exec_next_cases h <;> exact ⟨rfl, _, rfl⟩

/-- A result has one next state. -/
theorem eq_of_eq_next {r : Result} {t u : State} (ht : r = .next t) (hu : r = .next u) : t = u :=
  Host.Outcome.next.inj (ht.symm.trans hu)

/-- Settles O34, command by command: what each answers on the slot it finds. -/
theorem commandsChangeOnlyWhatTheyWrite : Obligations.CommandsChangeOnlyWhatTheyWrite := by
  intro i s t h
  obtain ⟨hpending, hresponses⟩ := exec_next_pending_responses h
  refine ⟨hpending, hresponses, ?construct, ?reserved, ?next, ?dispose⟩
  case construct =>
    rintro seed rfl hs
    obtain ⟨b, c, hs⟩ := s.live_eq_true_iff.mp hs
    rw [eq_of_eq_next h (exec_construct_live seed hs), State.respond_slot]
  case reserved =>
    rintro arg rfl
    rw [eq_of_eq_next h (exec_reservedOp3 arg s), State.respond_slot]
  case next =>
    rintro arg words cursor rfl hs
    rw [eq_of_eq_next h (exec_next_live arg hs), State.respond_slot, State.setSlot_slot]
    refine ⟨_, _, rfl, fun hc => ?_⟩
    rw [refill_of_ne words hc]
    exact ⟨fun _ => rfl, cursorIndex_succ_val cursor hc⟩
  case dispose =>
    rintro arg rfl
    cases hs : s.slot with
    | notLive => exact nomatch (exec_dispose_notLive arg hs).symm.trans h
    | live b c => rw [eq_of_eq_next h (exec_dispose_live arg hs), State.respond_slot, State.setSlot_slot]

end Sys2Proof.Machine
end

