-- ==== Sys2Proof/Proofs/Regenerate.lean ====
section
/-! PROOFS of the family spec/42_regenerate.md. First which words an iteration finds old and which new, and the closed
form that follows; then the bits of the combined value, and the buffers whose low bits do not matter; then where the
pass runs: inside NEXT and nowhere else. -/

namespace Sys2Proof.Machine

/-! ### Old and new words inside the pass (R51) -/

/-- The iterations from `m` up to `n` leave every word outside that range as it was. -/
theorem twistUpTo_read_of_unwritten (b : Buffer) {m n : Nat} {j : Index} (hmn : m ≤ n) (hn : n ≤ 624)
    (hj : j.val < m ∨ n ≤ j.val) : readWord (twistUpTo n b) j = readWord (twistUpTo m b) j := by
  induction n, hmn using Nat.le_induction with
  | base => rfl
  | succ n hmn ih =>
    have hne : loopIndex n ≠ j := by
      rw [Ne, Fin.ext_iff, loopIndex_val_of_lt hn]
      omega
    rw [twistUpTo_succ, twistIteration_read_other n _ hne]
    exact ih (by omega) (by omega)

/-- The words below the iteration are final. -/
theorem twistUpTo_read_new (old : Buffer) {i j : Nat} (hi : i ≤ 624) (hj : j < i) :
    readWord (twistUpTo i old) (ring j) = readWord (regenerate old) (ring j) :=
  (twistUpTo_read_of_unwritten old hi le_rfl (.inl (by rwa [ring_of_lt (hj.trans_le hi)]))).symm

/-- The words from the iteration up are untouched. -/
theorem twistUpTo_read_old (old : Buffer) {i j : Nat} (hij : i ≤ j) (hj : j < 624) :
    readWord (twistUpTo i old) (ring j) = readWord old (ring j) :=
  twistUpTo_read_of_unwritten old i.zero_le (hij.trans hj.le) (.inr (by rwa [ring_of_lt hj]))

/-- Settles O20: each index form is the ring's image of a number on one side of `i` or the other. -/
theorem regenerateReadsOldAndNewWords : Obligations.RegenerateReadsOldAndNewWords := by
  intro old i hi
  refine ⟨fun j hj => ?below, fun j hij hj => ?above, ?current, fun h => ?next, fun h => ?nextWrap, fun h => ?far,
    fun h => ?farWrap⟩
  case below => exact twistUpTo_read_new old hi.le hj
  case above => exact twistUpTo_read_old old hij hj
  case current => exact twistUpTo_read_old old le_rfl hi
  case next => exact twistUpTo_read_old old (Nat.le_succ i) (by omega)
  case nextWrap =>
    subst h
    rw [nextIndex_last]
    exact twistUpTo_read_new old hi.le (by decide)
  case far => exact twistUpTo_read_old old (j := i + 397) (by omega) (by omega)
  case farWrap =>
    rw [farIndex_of_wrap h]
    exact twistUpTo_read_new old hi.le (by omega)

/-! ### The closed form of the pass (R52) -/

/-- The final word of an index is the one its own iteration writes. -/
theorem regenerate_read (old : Buffer) {i : Nat} (hi : i < 624) :
    readWord (regenerate old) (ring i) =
      readWord (twistUpTo i old) (farIndex i) ^^^
        twistTerm (readWord old (ring i)) (readWord (twistUpTo i old) (nextIndex i)) := by
  calc readWord (regenerate old) (ring i)
    _ = readWord (twistUpTo (i + 1) old) (loopIndex i) := (twistUpTo_read_new old hi i.lt_succ_self).symm
    _ = readWord (twistUpTo i old) (farIndex i) ^^^
          twistTerm (readWord (twistUpTo i old) (loopIndex i)) (readWord (twistUpTo i old) (nextIndex i)) :=
        twistIteration_read_self i _
    _ = _ := by rw [loopIndex, twistUpTo_read_old old le_rfl hi]

/-- Settles O21: in each segment the reads are of the old and new words that R51 lists. -/
theorem regenerateEqualsItsClosedForm : Obligations.RegenerateEqualsItsClosedForm := by
  intro old T o n
  refine ⟨fun i hi => ?first, fun i h227 hi => ?second, ?last⟩
  case first =>
    obtain ⟨-, -, -, hnext, -, hfar, -⟩ := regenerateReadsOldAndNewWords old i (by omega)
    exact (regenerate_read old (by omega)).trans (by rw [hfar hi, hnext (by omega)]; rfl)
  case second =>
    obtain ⟨-, -, -, hnext, -, -, hfar⟩ := regenerateReadsOldAndNewWords old i (by omega)
    exact (regenerate_read old (by omega)).trans (by rw [hfar h227, hnext hi]; rfl)
  case last =>
    obtain ⟨-, -, -, -, hnext, -, hfar⟩ := regenerateReadsOldAndNewWords old 623 (by decide)
    exact (regenerate_read old (by decide)).trans (by rw [hfar (by decide), hnext rfl]; rfl)

/-! ### The combined value (R53) -/

theorem getLsbD_upperMask (k : Nat) : Config.upperMask.getLsbD k = decide (31 = k) := by
  have hmask : Config.upperMask = BitVec.twoPow 32 31 := rfl
  rw [hmask, BitVec.getLsbD_twoPow]
  rfl

theorem getLsbD_lowerMask (k : Nat) : Config.lowerMask.getLsbD k = decide (k < 31) := by
  have hmask : Config.lowerMask = (BitVec.allOnes 31).setWidth 32 := rfl
  rw [hmask, BitVec.getLsbD_setWidth, BitVec.getLsbD_allOnes, ← Bool.decide_and]
  exact decide_eq_decide.mpr (by omega)

/-- The combined value has bit 31 from the current word and the bits below from the next one. -/
theorem getLsbD_combine (cur next : Word) (k : Nat) :
    (combine cur next).getLsbD k = if k = 31 then cur.getLsbD 31 else decide (k < 31) && next.getLsbD k := by
  rw [combine, BitVec.getLsbD_or, BitVec.getLsbD_and, BitVec.getLsbD_and, getLsbD_upperMask, getLsbD_lowerMask]
  by_cases hk : k = 31
  · subst hk
    simp
  · simp [hk, Ne.symm hk, Bool.and_comm]

/-- The lowest bit of a word selects the magic word. -/
theorem magicOf_eq (y : Word) : magicOf y = if y.getLsbD 0 then Config.magic1 else Config.magic0 := by
  rw [magicOf, BitVec.and_one_eq_setWidth_ofBool_getLsbD]
  cases y.getLsbD 0 <;> rfl

/-- Settles O22, bit by bit from the bits of the combined value. -/
theorem combinedValueTakesItsBitsFromTwoWords : Obligations.CombinedValueTakesItsBitsFromTwoWords := by
  intro cur next y
  have htop : y.getLsbD 31 = cur.getLsbD 31 := getLsbD_combine cur next 31
  have hrest (k : Nat) (hk : k ≤ 30) : y.getLsbD k = next.getLsbD k := by
    rw [getLsbD_combine, if_neg (by omega), decide_eq_true (by omega), Bool.true_and]
  have hlow : y.getLsbD 0 = next.getLsbD 0 := hrest 0 (by decide)
  have hterm : twistTerm cur next = (y >>> 1) ^^^ magicOf y := rfl
  refine ⟨htop, hrest, ?top, ?second, fun k hk => ?below, ?parity, fun heven => ?even, fun hodd => ?odd⟩
  case top => rw [BitVec.getLsbD_ushiftRight, BitVec.getLsbD_of_ge y _ (by decide)]
  case second => exact (BitVec.getLsbD_ushiftRight ..).trans htop
  case below => rw [BitVec.getLsbD_ushiftRight, Nat.add_comm, hrest (k + 1) (by omega)]
  case parity =>
    rw [BitVec.and_one_eq_setWidth_ofBool_getLsbD, hlow]
    cases next.getLsbD 0 <;> rfl
  case even =>
    have hmagic : magicOf y = 0x00000000#32 := by rw [magicOf_eq, hlow, heven]; rfl
    exact ⟨hmagic, by rw [hterm, hmagic, BitVec.xor_zero]⟩
  case odd =>
    have hmagic : magicOf y = 0x9908B0DF#32 := by rw [magicOf_eq, hlow, hodd]; rfl
    exact ⟨hmagic, by rw [hterm, hmagic]⟩

/-! ### Bits that do not matter (R55) -/

/-- Of the current word the twist reads bit 31 alone. -/
theorem twistTerm_congr {cur cur' : Word} (h : cur.getLsbD 31 = cur'.getLsbD 31) (next : Word) :
    twistTerm cur next = twistTerm cur' next := by
  have hcombine : combine cur next = combine cur' next :=
    BitVec.eq_of_getLsbD_eq fun k _ => by rw [getLsbD_combine, getLsbD_combine, h]
  rw [twistTerm, twistTerm, hcombine]

/-- Two passes that agree after an iteration agree from there on. -/
theorem twistUpTo_congr {a b : Buffer} {m n : Nat} (hmn : m ≤ n) (h : twistUpTo m a = twistUpTo m b) :
    twistUpTo n a = twistUpTo n b := by
  induction n, hmn using Nat.le_induction with
  | base => exact h
  | succ n _ ih => rw [twistUpTo_succ, twistUpTo_succ, ih]

/-- Settles O23: the first iteration reads of `words[0]` its bit 31 alone and then overwrites it, so after it nothing of
the difference is left. -/
theorem lowBitsOfTheFirstWordNeverMatter : Obligations.LowBitsOfTheFirstWordNeverMatter := by
  intro a b hrest htop
  have hfirst : twistIteration 0 a = twistIteration 0 b := by
    refine buffer_ext fun j => ?_
    by_cases hj : loopIndex 0 = j
    · subst hj
      have hterm : twistTerm (readWord a (loopIndex 0)) = twistTerm (readWord b (loopIndex 0)) :=
        funext (twistTerm_congr htop)
      rw [twistIteration_read_self, twistIteration_read_self, hrest (farIndex 0) (by decide),
        hrest (nextIndex 0) (by decide), hterm]
    · rw [twistIteration_read_other 0 a hj, twistIteration_read_other 0 b hj, hrest j (Ne.symm hj)]
  exact twistUpTo_congr (m := 1) (by decide) hfirst

/-- The buffer of zeros. -/
def zeroBuffer : Buffer := Vector.replicate 624 0#32

@[simp] theorem readWord_zeroBuffer (j : Index) : readWord zeroBuffer j = 0#32 := Vector.getElem_replicate _

/-- An iteration leaves the buffer of zeros as it is, since it writes a zero. -/
theorem twistIteration_zeroBuffer (i : Nat) : twistIteration i zeroBuffer = zeroBuffer := by
  have hterm : twistTerm 0#32 0#32 = 0#32 := by decide
  refine buffer_ext fun j => ?_
  by_cases hj : loopIndex i = j
  · subst hj
    simp [twistIteration_read_self, hterm]
  · exact twistIteration_read_other i zeroBuffer hj

theorem twistUpTo_zeroBuffer (n : Nat) : twistUpTo n zeroBuffer = zeroBuffer := by
  induction n with
  | zero => rfl
  | succ n ih => rw [twistUpTo_succ, ih, twistIteration_zeroBuffer]

/-- Settles O24: such a buffer regenerates as the buffer of zeros does, which no iteration changes. -/
theorem degenerateBufferRegeneratesToZero : Obligations.DegenerateBufferRegeneratesToZero := by
  intro b hrest htop j
  have hzero : regenerate b = regenerate zeroBuffer :=
    lowBitsOfTheFirstWordNeverMatter b zeroBuffer (fun j hj => by rw [hrest j hj, readWord_zeroBuffer])
      (by rw [htop, readWord_zeroBuffer, BitVec.getLsbD_zero])
  rw [hzero, regenerate, twistUpTo_zeroBuffer, readWord_zeroBuffer]

/-! ### Where the pass runs (R56) -/

/-- A refill that changes the buffer is a whole pass, on the sentinel. -/
theorem refill_eq_regenerate_of_ne {b : Buffer} {c : Cursor} (h : (refill b c).1 ≠ b) :
    c = Config.sentinel ∧ (refill b c).1 = regenerate b := by
  by_cases hc : c = Config.sentinel
  · subst hc
    exact ⟨rfl, by rw [refill_sentinel]⟩
  · exact absurd (by rw [refill_of_ne b hc]) h

/-- A command that finds and leaves a live Generator keeps its slot, or is a NEXT, which leaves the refilled words. -/
theorem exec_live_cases {i : Instr} {s t : State} {words words' : Buffer} {cursor cursor' : Cursor}
    (h : exec i s = .next t) (hs : s.slot = .live words cursor) (ht : t.slot = .live words' cursor') :
    t.slot = s.slot ∨ (∃ arg, i = .next arg) ∧ words' = (refill words cursor).1 := by
  obtain ⟨_, _, hempty, _⟩ | ⟨_, _, _, _, _, rfl⟩ | ⟨arg, b, c, rfl, hl, rfl⟩ | ⟨_, _, _, _, _, rfl⟩ | ⟨_, _, rfl⟩ :=
    exec_next_cases h
  · exact nomatch hempty.symm.trans hs
  · exact .inl rfl
  · obtain ⟨rfl, rfl⟩ := Slot.live.inj (hl.symm.trans hs)
    exact .inr ⟨⟨arg, rfl⟩, (Slot.live.inj ht).1.symm⟩
  · exact nomatch ht
  · exact .inl rfl

/-- A step between live states keeps the slot, or performs a NEXT, which leaves the refilled words. -/
theorem step_live_cases {s t : State} {words words' : Buffer} {cursor cursor' : Cursor}
    (h : step s = .next t) (hs : s.slot = .live words cursor) (ht : t.slot = .live words' cursor') :
    t.slot = s.slot ∨
      (∃ w rest, s.pending = .command w :: rest ∧ w.extractLsb 33 32 = 0b01#2) ∧ words' = (refill words cursor).1 := by
  obtain ⟨_, rfl⟩ | ⟨_, _, _, rfl⟩ | ⟨w, rest, hp, hperf⟩ := step_next_cases h
  · exact .inl rfl
  · exact nomatch ht
  · obtain hsame | ⟨⟨arg, hd⟩, hwords⟩ := exec_live_cases hperf hs ht
    · exact .inl hsame
    · exact .inr ⟨⟨w, rest, hp, by rw [extractLsb_eq_opcodeBits_decode, hd]; rfl⟩, hwords⟩

/-- Settles O36: of the steps between live states only a NEXT touches the slot, and its refill is the pass or nothing. -/
theorem wordsChangeOnlyByRegenerateInNext : Obligations.WordsChangeOnlyByRegenerateInNext := by
  intro s t words words' cursor cursor' h hs ht
  obtain hsame | ⟨hnext, rfl⟩ := step_live_cases h hs ht
  · obtain ⟨rfl, rfl⟩ := Slot.live.inj (ht.symm.trans (hsame.trans hs))
    exact ⟨fun hne => absurd rfl hne, fun hne => hne.elim (absurd rfl) (absurd rfl)⟩
  · exact ⟨refill_eq_regenerate_of_ne, fun _ => hnext⟩

end Sys2Proof.Machine
end

