-- ==== Sys2Proof/Proofs/Dispose.lean ====
section
/-! PROOFS of the family spec/44_dispose.md. First what DISPOSE answers in each lifecycle state; then the run it begins
with a CONSTRUCT and NEXTs, whose final state names nothing of the old Generator. -/

namespace Sys2Proof

open Sys2Proof.Machine

/-- Settles O26: the slot decides what DISPOSE answers, and what the old slot held has no part in it. -/
theorem disposeFreesTheSlot : Obligations.DisposeFreesTheSlot := by
  refine fun arg s => ⟨fun hs => ?free, fun hs => ?live⟩
  case free => exact exec_dispose_notLive arg (s.live_eq_false_iff.mp hs)
  case live =>
    obtain ⟨b, c, hs⟩ := s.live_eq_true_iff.mp hs
    exact exec_dispose_live arg hs

/-- A live block that is disposed, seeded and asked for words: its slot and its new answers are the seed's and the number
of NEXTs' alone (spec/44_dispose.md R66). -/
theorem run_dispose_construct_nexts (seed a : Word) (args : List Word) {s : State} {rest : List HostInput}
    (hs : s.live = true)
    (hp : s.pending = .command (encode (.dispose a)) :: .command (encode (.construct seed)) ::
      args.map (fun x => .command (encode (.next x))) ++ rest) :
    run (args.length + 2) s = .next
      { slot := .live (bufferAfter seed args.length) (cursorAfter args.length), pending := rest,
        responses := s.responses ++ (Response.mk .ok 0#32 :: Response.mk .ok 0#32 ::
          (List.range args.length).map fun j => Response.mk .ok (outputWord seed j)) } := by
  rw [run_dispose_construct a seed args.length hs hp, run_nexts_of_generation seed args (k := 0) rfl rfl]
  simp [List.range_eq_range']

/-- Settles O27: both runs end in the state that the seed and the number of NEXTs name. -/
theorem disposedGeneratorLeavesNoTrace : Obligations.DisposedGeneratorLeavesNoTrace := by
  intro seed a args s₁ s₂ rest hs₁ hs₂ hp₁ hsame
  have hrun₁ := run_dispose_construct_nexts seed a args hs₁ hp₁
  have hrun₂ := run_dispose_construct_nexts seed a args hs₂ (hsame.trans hp₁)
  exact ⟨_, _, _, hrun₁, hrun₂, rfl, rfl, rfl, rfl⟩

end Sys2Proof
end

