-- ==== Sys2Proof/Proofs/Exceptions.lean ====
section
/-! PROOFS of the family spec/60_exceptions.md. First the order of the checks as a table of the opcode and `live`, and
that every command answers by it; then the statements that read the table; then the faulted condition. -/

namespace Sys2Proof.Machine

/-! ### The order of the checks (R76) -/

/-- The status that the checks of R76 give a command with opcode `op`, in their order: the reserved opcode, whatever
`live` is, and then the lifecycle check. `none` is the fault, which has no response (R73). -/
def checkedStatus (op : BitVec 2) (live : Bool) : Option Status :=
  if op = 0b11#2 then some .illegal
  else if op = 0b00#2 then some (if live then .allocFail else .ok)
  else if live then some .ok
  else none

/-- A command whose checks give a status is answered once, with that status. -/
theorem exec_next_of_checkedStatus {i : Instr} {s : State} {st : Status}
    (h : checkedStatus (opcodeBits i) s.live = some st) :
    ∃ t d, exec i s = .next t ∧ t.responses = s.responses ++ [Response.mk st d] := by
  cases hs : s.slot with
  | notLive =>
    rw [s.live_eq_false_iff.mpr hs] at h
    cases i with
    | construct seed => cases h; exact ⟨_, _, exec_construct_notLive seed hs, rfl⟩
    | next arg => cases h
    | dispose arg => cases h
    | reservedOp3 arg => cases h; exact ⟨_, _, exec_reservedOp3 arg s, rfl⟩
  | live b c =>
    rw [s.live_eq_true_iff.mpr ⟨b, c, hs⟩] at h
    cases i with
    | construct seed => cases h; exact ⟨_, _, exec_construct_live seed hs, rfl⟩
    | next arg => cases h; exact ⟨_, _, exec_next_live arg hs, rfl⟩
    | dispose arg => cases h; exact ⟨_, _, exec_dispose_live arg hs, rfl⟩
    | reservedOp3 arg => cases h; exact ⟨_, _, exec_reservedOp3 arg s, rfl⟩

/-- The checks give no status exactly to NEXT and DISPOSE while nothing is live. -/
theorem checkedStatus_eq_none_iff (i : Instr) (live : Bool) :
    checkedStatus (opcodeBits i) live = none ↔ live = false ∧ ∃ arg, i = .next arg ∨ i = .dispose arg := by
  cases i <;> simp [checkedStatus, opcodeBits]

/-- A command whose checks give no status faults, with its own word. -/
theorem exec_fault_of_checkedStatus {i : Instr} {s : State} (h : checkedStatus (opcodeBits i) s.live = none) :
    exec i s = .fault (.useWhileNotLive (encode i)) := by
  obtain ⟨hs, arg, rfl | rfl⟩ := (checkedStatus_eq_none_iff i s.live).mp h
  · exact exec_next_notLive arg (s.live_eq_false_iff.mp hs)
  · exact exec_dispose_notLive arg (s.live_eq_false_iff.mp hs)

/-- A command is answered with a status exactly when its checks give that status. -/
theorem exec_answers_iff (i : Instr) (s : State) (st : Status) :
    (∃ t d, exec i s = .next t ∧ t.responses = s.responses ++ [Response.mk st d]) ↔
      checkedStatus (opcodeBits i) s.live = some st := by
  refine ⟨fun ⟨t, d, ht, hr⟩ => ?_, exec_next_of_checkedStatus⟩
  cases hc : checkedStatus (opcodeBits i) s.live with
  | none => exact nomatch (exec_fault_of_checkedStatus hc).symm.trans ht
  | some st' =>
    obtain ⟨u, e, hu, hr'⟩ := exec_next_of_checkedStatus hc
    obtain rfl := eq_of_eq_next ht hu
    obtain ⟨rfl, -⟩ : st' = st ∧ e = d := by simpa using hr'.symm.trans hr
    rfl

/-- A command faults exactly when its checks give no status, and the fault names the command's word. -/
theorem exec_fault_iff (i : Instr) (s : State) (r : Fault) :
    exec i s = .fault r ↔ checkedStatus (opcodeBits i) s.live = none ∧ r = .useWhileNotLive (encode i) := by
  cases hc : checkedStatus (opcodeBits i) s.live with
  | none => simp [exec_fault_of_checkedStatus hc, eq_comm]
  | some st =>
    obtain ⟨t, d, ht, _⟩ := exec_next_of_checkedStatus hc
    simp [ht]

/-- Every command is answered once or faults, with its own word. -/
theorem exec_next_or_fault (i : Instr) (s : State) :
    (∃ t r, exec i s = .next t ∧ t.responses = s.responses ++ [r]) ∨
      exec i s = .fault (.useWhileNotLive (encode i)) := by
  cases hc : checkedStatus (opcodeBits i) s.live with
  | none => exact .inr (exec_fault_of_checkedStatus hc)
  | some st =>
    obtain ⟨t, d, ht, hr⟩ := exec_next_of_checkedStatus hc
    exact .inl ⟨t, _, ht, hr⟩

/-- No command is refused. -/
theorem exec_ne_refused (i : Instr) (s : State) (r : Refusal) : exec i s ≠ .refused r := by
  obtain ⟨_, _, hnext, _⟩ | hfault := exec_next_or_fault i s
  · exact fun h => nomatch hnext.symm.trans h
  · exact fun h => nomatch hfault.symm.trans h

/-- Settles O30, from the two rows of the checks that give no status. -/
theorem faultExactlyOnUseWhileNotLive : Obligations.FaultExactlyOnUseWhileNotLive := by
  intro i s r
  rw [exec_fault_iff, checkedStatus_eq_none_iff, and_assoc]

/-! ### The checks of a command word (R75, R76) -/

/-- The checks by opcode: the four outcomes of R76, each with its opcodes and its value of `live`. -/
theorem checkedStatus_cases : ∀ (op : BitVec 2) (live : Bool),
    (checkedStatus op live = some .illegal ↔ op = 0b11#2) ∧
    (checkedStatus op live = some .allocFail ↔ op = 0b00#2 ∧ live = true) ∧
    (checkedStatus op live = none ↔ (op = 0b01#2 ∨ op = 0b10#2) ∧ live = false) ∧
    (checkedStatus op live = some .ok ↔
      (op = 0b00#2 ∧ live = false) ∨ (op = 0b01#2 ∧ live = true) ∨ (op = 0b10#2 ∧ live = true)) := by
  decide

/-- The command that a word decodes to has that word: its two fields joined again (R31). -/
@[simp] theorem encode_decode (w : CmdWord) : encode (decode w) = w := by
  rw [encode, ← extractLsb_eq_opcodeBits_decode, ← extractLsb_eq_operandBits_decode]
  exact opField_append_argField w

/-- A command word faults exactly when its checks give no status, and the fault names that word. -/
theorem exec_decode_fault_iff (w : CmdWord) (s : State) (r : Fault) :
    exec (decode w) s = .fault r ↔ checkedStatus (w.extractLsb 33 32) s.live = none ∧ r = .useWhileNotLive w := by
  rw [exec_fault_iff, encode_decode, extractLsb_eq_opcodeBits_decode]

/-- Settles O29: each answer is an outcome of the checks, and a reset leaves the empty slot. -/
theorem checksComeInTheFixedOrder : Obligations.ChecksComeInTheFixedOrder := by
  refine ⟨fun s w => ?checks, fun s f rest hp => ⟨_, step_reset hp, rfl⟩⟩
  obtain ⟨hillegal, halloc, hfault, hok⟩ := checkedStatus_cases (w.extractLsb 33 32) s.live
  have hanswers := exec_answers_iff (decode w) s
  rw [← extractLsb_eq_opcodeBits_decode] at hanswers
  refine ⟨(hanswers .illegal).trans hillegal, (hanswers .allocFail).trans halloc, ?_, (hanswers .ok).trans hok⟩
  simp only [exec_decode_fault_iff, exists_and_left, exists_eq, and_true, hfault]

/-- Settles O11: a status of the checks is one response, no status is the fault, and neither is a refusal. -/
theorem commandIsAnsweredOnceOrFaults : Obligations.CommandIsAnsweredOnceOrFaults := by
  intro s w
  refine ⟨?outcome, ?fault, exec_ne_refused (decode w) s⟩
  case outcome =>
    have houtcome := exec_next_or_fault (decode w) s
    rwa [encode_decode] at houtcome
  case fault =>
    obtain ⟨-, -, hnone, -⟩ := checkedStatus_cases (w.extractLsb 33 32) s.live
    rw [exec_decode_fault_iff, hnone, and_iff_left rfl, and_comm]

/-! ### The faulted condition (R74, R85) -/

/-- A faulted block passes over an input that is no reset. -/
theorem advance_faulted_of_not_reset (why : Fault) {input : HostInput} (rest : List HostInput)
    (h : ∀ g, input ≠ .reset g) : (Condition.faulted why (input :: rest)).advance = .faulted why rest := by
  cases input with
  | command w => rfl
  | reset g => exact absurd rfl (h g)
  | overlap first second => rfl

/-- A faulted block passes over any inputs without a reset. -/
theorem advance_iterate_faulted (why : Fault) {inputs : List HostInput} (rest : List HostInput)
    (h : ∀ g, HostInput.reset g ∉ inputs) :
    Condition.advance^[inputs.length] (.faulted why (inputs ++ rest)) = .faulted why rest := by
  induction inputs with
  | nil => rfl
  | cons input inputs ih =>
    simp only [List.mem_cons, not_or] at h
    rw [List.length_cons, Function.iterate_succ_apply, List.cons_append,
      advance_faulted_of_not_reset why _ fun g => Ne.symm (h g).1]
    exact ih fun g => (h g).2

/-- Settles O31: the inputs without a reset are passed over, and the reset after them is taken in one step. -/
theorem faultIsStickyUntilReset : Obligations.FaultIsStickyUntilReset := by
  intro why inputs rest f h
  refine ⟨advance_iterate_faulted why rest h, resetTo rest, ?_, rfl, rfl⟩
  rw [Function.iterate_succ_apply', advance_iterate_faulted why _ h]
  rfl

end Sys2Proof.Machine
end

