-- ==== Sys2Proof/Proofs/ResetAndHazards.lean ====
section
/-! PROOFS of the family spec/70_reset_and_hazards.md. First which steps are refused and what reset leaves; then that
the host's duties are what a run needs to complete, step by step; then which latency an answered command costs. -/

namespace Sys2Proof.Machine

/-! ### The steps that are refused (R87, U12) -/

/-- With overlapping commands next, a step is refused and names both words. -/
theorem step_overlap {s : State} {first second : CmdWord} {rest : List HostInput}
    (hp : s.pending = .overlap first second :: rest) : step s = .refused (.overlappingCommands first second) := by
  simp only [step, State.takeInput_cons hp, refuseOverlap]

/-- Settles O12, by the host's next input: only an overlap is refused, since no command is. -/
theorem onlyOverlapIsRefused : Obligations.OnlyOverlapIsRefused := by
  intro s r
  cases hp : s.pending with
  | nil => simp [step_idle hp]
  | cons input rest =>
    cases input with
    | command w => simp [step_command hp, exec_ne_refused]
    | reset f => simp [step_reset hp]
    | overlap first second => simp [step_overlap hp, eq_comm]

/-! ### Reset from any condition (R85) -/

/-- A running block whose step answers a next state runs on in it. -/
theorem advance_running_of_next {s t : State} (h : step s = .next t) : (Condition.running s).advance = .running t := by
  simp only [Condition.advance, h]

/-- Settles O32: the one state is the reset state with what the host does afterwards. -/
theorem resetFromAnyCondition : Obligations.ResetFromAnyCondition := by
  refine fun rest => ⟨resetTo rest, rfl, rfl, rfl, fun f => ⟨fun s hp => ?running, fun _ => rfl, fun _ => rfl⟩⟩
  case running => exact ⟨step_reset hp, advance_running_of_next (step_reset hp)⟩

/-! ### A step takes one input, and faults only on a command -/

/-- A step that answers a next state has taken the host's next input, if there was one. -/
theorem step_next_pending {s t : State} (h : step s = .next t) : t.pending = s.pending.tail := by
  obtain ⟨hp, rfl⟩ | ⟨f, rest, hp, rfl⟩ | ⟨w, rest, hp, hperf⟩ := step_next_cases h
  · simp [hp]
  · simp [hp]
  · simpa [hp] using (exec_next_pending_responses hperf).1

/-- A step that faults has performed a command that faults. -/
theorem step_fault_cases {s : State} {r : Fault} (h : step s = .fault r) :
    ∃ w rest, s.pending = .command w :: rest ∧ exec (decode w) { s with pending := rest } = .fault r := by
  cases hp : s.pending with
  | nil => exact nomatch (step_idle hp).symm.trans h
  | cons input rest =>
    cases input with
    | command w => exact ⟨w, rest, rfl, (step_command hp).symm.trans h⟩
    | reset f => exact nomatch (step_reset hp).symm.trans h
    | overlap first second => exact nomatch (step_overlap hp).symm.trans h

end Sys2Proof.Machine

namespace Sys2Proof

open Sys2Proof.Machine

/-! ### The host's duties, step by step (R81, R88) -/

/-- A command that is performed is no breach of duty: the host is legal exactly when it is legal from the `live` that
the command leaves. -/
theorem hostLegal_of_exec_next {w : CmdWord} {s t : State} (h : exec (decode w) s = .next t) (rest : List HostInput) :
    hostLegal s.live (.command w :: rest) = hostLegal t.live rest := by
  rw [hostLegal]
  obtain ⟨_, hd, _, rfl⟩ | ⟨_, _, _, hd, hs, rfl⟩ | ⟨_, _, _, hd, hs, rfl⟩ | ⟨_, _, _, hd, hs, rfl⟩ | ⟨_, hd, rfl⟩ :=
    exec_next_cases h
  · simp [hd, State.live]
  · simp [hd, hs, State.live]
  · simp [hd, hs, State.live]
  · simp [hd, hs, State.live]
  · simp [hd, State.live]

/-- A command that faults is a breach of duty. -/
theorem hostLegal_of_exec_fault {w : CmdWord} {s : State} {r : Fault} (h : exec (decode w) s = .fault r)
    (rest : List HostInput) : hostLegal s.live (.command w :: rest) = false := by
  obtain ⟨hs, ⟨arg, hd | hd⟩, -⟩ := (faultExactlyOnUseWhileNotLive (decode w) s r).mp h
  · simp [hostLegal, hd, hs]
  · simp [hostLegal, hd, hs]

/-- A step that answers a next state neither breaks nor mends the host's duties. -/
theorem safe_iff_of_step_next {s t : State} (h : step s = .next t) : Safe s ↔ Safe t := by
  have htail := step_next_pending h
  obtain ⟨_, rfl⟩ | ⟨_, rest, hp, rfl⟩ | ⟨w, rest, hp, hperf⟩ := step_next_cases h
  · rfl
  · rw [Safe, hp, hostLegal]; rfl
  · have hlegal : hostLegal s.live (.command w :: rest) = hostLegal t.live rest := hostLegal_of_exec_next hperf rest
    rw [Safe, Safe, htail, hp, hlegal, List.tail_cons]

/-- Before a step that faults the host does not keep its duties. -/
theorem not_safe_of_step_fault {s : State} {r : Fault} (h : step s = .fault r) : ¬ Safe s := by
  obtain ⟨w, rest, hp, hfault⟩ := step_fault_cases h
  have hlegal : hostLegal s.live (.command w :: rest) = false := hostLegal_of_exec_fault hfault rest
  simp [Safe, hp, hlegal]

/-- Before a step that is refused the host does not keep its duties. -/
theorem not_safe_of_step_refused {s : State} {r : Refusal} (h : step s = .refused r) : ¬ Safe s := by
  obtain ⟨_, _, _, hp, -⟩ := (onlyOverlapIsRefused s r).mp h
  simp [Safe, hp, hostLegal]

/-- A run of as many steps as there are inputs completes exactly when the host keeps its duties. -/
theorem run_completes_iff_safe {k : Nat} {s : State} (hk : s.pending.length = k) :
    (∃ t, run k s = .next t ∧ t.pending = []) ↔ Safe s := by
  induction k generalizing s with
  | zero =>
    have hp : s.pending = [] := List.eq_nil_of_length_eq_zero hk
    simp [Safe, hp, hostLegal]
  | succ k ih =>
    cases hstep : step s with
    | next t =>
      have ht : t.pending.length = k := by rw [step_next_pending hstep, List.length_tail, hk, Nat.add_sub_cancel]
      rw [run_succ_of_next hstep, ih ht, safe_iff_of_step_next hstep]
    | fault r => simp [run_succ_of_fault hstep, not_safe_of_step_fault hstep]
    | refused r => simp [run_succ_of_refused hstep, not_safe_of_step_refused hstep]

/-- Settles O40, by induction on the number of inputs: a next state passes the duties on, and a fault or a refusal is a
breach. -/
theorem runCompletesExactlyWhenHostIsLegal : Obligations.RunCompletesExactlyWhenHostIsLegal :=
  fun _ => run_completes_iff_safe rfl

end Sys2Proof

namespace Sys2Proof.Machine

/-! ### Latencies (R96, D18) -/

theorem latency_construct (seed : Word) (s : State) : latency (.construct seed) s = some Config.tConstruct := by
  simp [latency]

theorem latency_next_notLive (arg : Word) {s : State} (h : s.slot = .notLive) : latency (.next arg) s = none := by
  simp [latency, h]

theorem latency_next_live (arg : Word) {s : State} {b : Buffer} {c : Cursor} (h : s.slot = .live b c) :
    latency (.next arg) s = some (if c = Config.sentinel then Config.tNextRegen else Config.tNext) := by
  simp [latency, h]

theorem latency_dispose_notLive (arg : Word) {s : State} (h : s.slot = .notLive) :
    latency (.dispose arg) s = none := by
  simp [latency, h]

theorem latency_dispose_live (arg : Word) {s : State} {b : Buffer} {c : Cursor} (h : s.slot = .live b c) :
    latency (.dispose arg) s = some Config.tDispose := by
  simp [latency, h]

theorem latency_reservedOp3 (arg : Word) (s : State) : latency (.reservedOp3 arg) s = none := by
  simp [latency]

/-- A command answers a next state exactly when it is no NEXT or DISPOSE of an empty slot. -/
theorem exists_exec_next_iff (i : Instr) (s : State) :
    (∃ t, exec i s = .next t) ↔ ¬ (s.live = false ∧ ∃ arg, i = .next arg ∨ i = .dispose arg) := by
  rw [← checkedStatus_eq_none_iff]
  cases hc : checkedStatus (opcodeBits i) s.live with
  | none => simp [exec_fault_of_checkedStatus hc]
  | some st =>
    obtain ⟨t, _, ht, _⟩ := exec_next_of_checkedStatus hc
    simp [ht]

/-- The commands with a parameter are those that are answered, the reserved opcode apart. -/
theorem exists_latency_iff (i : Instr) (s : State) :
    (∃ l, latency i s = some l) ↔ (∃ t, exec i s = .next t) ∧ ∀ arg, i ≠ .reservedOp3 arg := by
  rw [exists_exec_next_iff, s.live_eq_false_iff]
  cases i with
  | construct seed => simp [latency_construct]
  | next arg =>
    cases hs : s.slot with
    | notLive => simp [latency_next_notLive arg hs]
    | live b c => simp [latency_next_live arg hs]
  | dispose arg =>
    cases hs : s.slot with
    | notLive => simp [latency_dispose_notLive arg hs]
    | live b c => simp [latency_dispose_live arg hs]
  | reservedOp3 arg => simp [latency_reservedOp3]

/-- Settles O41, command by command, from the parameter of each. -/
theorem answeredCommandsHaveALatency : Obligations.AnsweredCommandsHaveALatency := by
  refine fun i s => ⟨exists_latency_iff i s, ?construct, ?next, ?dispose⟩
  case construct =>
    rintro seed rfl
    exact latency_construct seed s
  case next =>
    rintro arg words cursor rfl hs
    rw [latency_next_live arg hs]
    exact ⟨fun hc => congrArg some (if_pos hc), fun hc => congrArg some (if_neg hc)⟩
  case dispose =>
    rintro arg rfl hs
    obtain ⟨b, c, hs⟩ := s.live_eq_true_iff.mp hs
    exact latency_dispose_live arg hs

end Sys2Proof.Machine
end

/-! PROOFS of the obligations outside the families above: a command word is given back by the command it decodes to
(spec/30_encoding.md sections 2 and 3), by `Machine.encode_decode`, which the order of the checks needs as well. -/

namespace Sys2Proof

/-- Settles O2: the decoded command keeps the opcode field and the operand field of the word, and a word is these two
fields joined. -/
theorem encodeOfDecodeIsTheWord : Obligations.EncodeOfDecodeIsTheWord := Machine.encode_decode

end Sys2Proof
